-- ==== Sys2Proof/Word.lean ====
section
/-! DEFINITION. The words of the block: bytes (R14), ring indices (R22, R23), command words (R81). -/

namespace Sys2Proof

/-- A byte is 8 bits, an unsigned value (R14). -/
abbrev Byte := BitVec 8

/-- A slot index of the ring: `head` and `tail` are 8 bits wide (R13, R22, R23). -/
abbrev Index := BitVec 8

/-- A command word, 11 bits, `op[2:0] ++ data[7:0]` (R81). -/
abbrev CmdWord := BitVec 11

end Sys2Proof
end

