-- ==== Sys2Proof/Config.lean ====
section
/-! DEFINITION. The free values: what the spec leaves unspecified for every run. The numbers it fixes (R8 to R12) stand
in Machine/Params.lean. -/

namespace Sys2Proof

/-- The byte that slot `addr` of `ring` holds while no `RING_PUSH` has written it since the `fill`-th hardware reset.
"After reset the contents of `ring[0 .. N-1]` are unspecified" (R41): a free value, assumption 5. -/
opaque Config.ringFill (fill addr : Nat) : Byte

/-- The same for slot `addr` of `out` (R44): a free value, assumption 5. -/
opaque Config.outFill (fill addr : Nat) : Byte

end Sys2Proof
end

