-- ==== Sys2Proof/Machine/Params.lean ====
section
/-! DEFINITION. The implementation parameters, each number of the source by its name (R8 to R12). -/

namespace Sys2Proof.Machine

/-- `N = 256`, the slots of the ring array (R8). -/
def ringSlots : Nat := 256

/-- `MAXF = 65`, the slots of the output buffer (R9). -/
def maxFrame : Nat := 65

/-- `DEFLEN = 6`, the default frame length (R10). -/
def defaultLength : Nat := 6

/-- `EXP_INIT = 6`, loaded into `expected_length` at a frame start (R11; conflict C1, decision D1, assumption 4). -/
def expInit : BitVec 9 := 6

/-- `LEAD`, the nine recognized leading bytes (R12). -/
def leadBytes : List Byte := [0x62, 0x60, 0x67, 0x75, 0x71, 0x64, 0x68, 0x7B, 0x7C]

/-- `VARLEAD`, the leading bytes of variable-length frames (R12). -/
def varLeadBytes : List Byte := [0x75, 0x7C]

/-- `FIXLEAD = LEAD \ VARLEAD` (R12). -/
def fixLeadBytes : List Byte := leadBytes.filter fun b => b ∉ varLeadBytes

end Sys2Proof.Machine
end

