-- ==== Sys2Proof/Syntax.lean ====
section
/-! DEFINITION. The instructions: one constructor per row of spec/opcode_table.json, that is the six operations (R6),
the reserved command words (R84) and the nine recognized leading bytes (R12, R76). The names of the leading bytes are
labels only (R76, assumption 20). -/

namespace Sys2Proof

/-- One row of the opcode table each. The operations ignore the data bits of their word (R83), but for `RING_PUSH`. -/
inductive Instr where
  /-- `RING_RESET` (R100): empty the ring. -/
  | ringReset
  /-- `RING_PUSH b` (R101): append one byte, or drop it if the ring is full. -/
  | ringPush (b : BitVec 8)
  /-- `RING_POP` (R102): remove and return the oldest byte, or report empty. -/
  | ringPop
  /-- `RING_SIZE` (R103): return the number of bytes held. -/
  | ringSize
  /-- `FEED` (R130): drain the ring through `STEP` until a frame completes or the ring is empty. -/
  | feed
  /-- `ASM_RESET` (R131): abandon the frame in progress. -/
  | asmReset
  /-- The words with `op` 6 or 7 (R84); `low` is the word without its two leading ones. -/
  | reservedOp (low : BitVec 9)
  /-- Leading byte 0x62, "touch button", format FIXED (R76). -/
  | lead62
  /-- Leading byte 0x60, "touch checkbox", format FIXED (R76). -/
  | lead60
  /-- Leading byte 0x67, "touch slider", format FIXED (R76). -/
  | lead67
  /-- Leading byte 0x75, "get edit value", format VAR (R76). -/
  | lead75
  /-- Leading byte 0x71, "get page", format FIXED (R76). -/
  | lead71
  /-- Leading byte 0x64, "get checkbox", format FIXED (R76). -/
  | lead64
  /-- Leading byte 0x68, "get slider", format FIXED (R76). -/
  | lead68
  /-- Leading byte 0x7B, "touch edit", format FIXED (R76). -/
  | lead7B
  /-- Leading byte 0x7C, "get touch edit value", format VAR (R76). -/
  | lead7C
deriving DecidableEq, Repr

/-- The two command ports (R80), one for each agent (R7). -/
inductive Port where
  | producer
  | consumer
deriving DecidableEq, Repr

end Sys2Proof
end

