-- ==== Sys2Proof/Machine/State.lean ====
section
/-! DEFINITION. The state: the seven elements of R20 in the block's two components (R1), what its two command ports hold
(R80, R82), and the model's own bookkeeping (the order of turns, the labels of R151, the fill counters). -/

namespace Sys2Proof.Machine

/-- A byte array: the slots that have been written, by rising address. A slot not listed has not been written since the
last hardware reset and reads as a free value (assumption 5). -/
abbrev Memory := List Host.Cell

/-- The byte ring buffer (R20 to R24). -/
structure RingBuffer where
  /-- `ring[0 .. N-1]` (R21): the written slots. -/
  slots : Memory
  /-- MODEL's own: which free contents the unwritten slots have (assumption 5). -/
  fill : Nat
  /-- `head`, the next write index (R22). -/
  head : BitVec 8
  /-- `tail`, the next read index (R23). -/
  tail : BitVec 8
deriving DecidableEq, Repr

/-- The frame assembly state (R25 to R28). -/
structure Assembly where
  /-- `out[0 .. MAXF-1]`, the output buffer (R28): the written slots. -/
  out : Memory
  /-- MODEL's own: which free contents the unwritten slots have (assumption 5). -/
  fill : Nat
  /-- `position` (R25): bytes of the frame in progress, 0 when idle. -/
  position : BitVec 7
  /-- `expected_length` (R26): the threshold of the completion test. -/
  expectedLength : BitVec 9
  /-- `leading_byte` (R27). -/
  leadingByte : BitVec 8
deriving DecidableEq, Repr

/-- A result as the port carries it to the consumer (R82). -/
inductive Delivery where
  /-- `RING_POP`: `valid[0] ++ byte[7:0]`. -/
  | pop (bits : BitVec 9)
  /-- `RING_SIZE`: the size. -/
  | size (bits : BitVec 8)
  /-- `FEED`: `len[6:0]`, then `len` bytes, `out[0]` first. -/
  | feed (len : BitVec 7) (bytes : List Byte)
deriving DecidableEq, Repr

/-- The labels of the anomalies (R151): no state of the block, no output, read by no rule. -/
inductive Event where
  | overflow (b : Byte)
  | noise (b : Byte)
  | oversize (b : Byte)
  | starved
deriving DecidableEq, Repr

/-- Whose transition comes next (R59), or a hardware reset between two transitions (R173), which says for each port
whether a command is presented at the same instant. -/
inductive Turn where
  | producer
  | consumer
  | hardwareReset (producerPresents consumerPresents : Bool)
deriving DecidableEq, Repr

structure State where
  /-- The byte ring buffer: `ring`, `head`, `tail` (R20). -/
  ring : RingBuffer
  /-- The frame assembly state: `position`, `expected_length`, `leading_byte`, `out` (R20). -/
  asm : Assembly
  /-- The consumer port is busy with a `FEED` that has not delivered its result (R80, R130). -/
  feeding : Bool
  /-- The producer port: the command words the producer presents, oldest first (R80). -/
  producerPort : List CmdWord
  /-- The consumer port: the command words the consumer presents, oldest first (R80). -/
  consumerPort : List CmdWord
  /-- MODEL's own: the order of the agents' transitions, one interleaving of R59 (assumption 1). -/
  schedule : List Turn
  /-- The results the consumer has received, oldest first (R82). -/
  delivered : List Delivery
  /-- MODEL's own: the labels noted so far, oldest first (R151, assumption 8). -/
  events : List Event
deriving DecidableEq, Repr

/-- The reasons to stop with a fault. There are none: "A model's step function for this block has no fault outcome"
(R150). Nothing raises one; safe or unsafe does not arise. -/
inductive Fault where
deriving DecidableEq, Repr

/-- The reasons to refuse. -/
inductive Refusal where
  /-- Raised by `exec`'s arm for an instruction that has no meaning yet; safe. No arm raises it now. -/
  | notModelled (mnemonic : String)
  /-- Raised by the meaning of the reserved command words, `op` 6 and 7 (R84: "A model must *refuse* all of these"), and by
  the fetch when one is presented at the instant of a hardware reset (assumption 14); safe: the spec gives a run that
  presents one no meaning. -/
  | reservedCommand
  /-- Raised by the fetch of a command word on a port that does not accept its operation (R84, R162), at the instant of a
  hardware reset too (assumption 14); safe: the spec gives a run that presents one no meaning. -/
  | wrongPort
deriving DecidableEq, Repr

/-- The ring right after the hardware reset: empty, its slots unspecified (R40, R41). -/
def RingBuffer.reset : RingBuffer := { slots := [], fill := 0, head := 0, tail := 0 }

/-- The assembly state right after the hardware reset (R42, R43, R44). -/
def Assembly.reset : Assembly :=
  { out := [], fill := 0, position := 0, expectedLength := expInit, leadingByte := 0x00 }

/-- The block right after the hardware reset (R171): it waits for commands, and none has been presented (R172). -/
def State.reset : State :=
  { ring := RingBuffer.reset, asm := Assembly.reset, feeding := false, producerPort := [], consumerPort := [],
    schedule := [], delivered := [], events := [] }

end Sys2Proof.Machine
end

