-- ==== Sys2Proof/Machine/Flags.lean ====
section
/-! DEFINITION. The block stores no flag (R30); what stands in for flags are the conditions computed from `head` and
`tail` each time they are needed: empty, full and size (R31 to R33). -/

namespace Sys2Proof.Machine

/-- `(i + 1) mod N`, the only way an index advances (R22, R23, R104). -/
def nextIndex (i : Index) : Index := BitVec.ofNat 8 ((i.toNat + 1) % ringSlots)

/-- *empty* is `head == tail` (R31). -/
def ringEmpty (r : RingBuffer) : Bool := r.head == r.tail

/-- *full* is `(head + 1) mod N == tail` (R32). -/
def ringFull (r : RingBuffer) : Bool := nextIndex r.head == r.tail

/-- *size* is `(head + N - tail) mod N` (R33). -/
def ringSize (r : RingBuffer) : Nat := (r.head.toNat + ringSlots - r.tail.toNat) % ringSlots

end Sys2Proof.Machine
end

