-- ==== Sys2Proof/Machine/Operands.lean ====
section
/-! DEFINITION. The one operand the reassembler assembles, the length byte (R75), and the forms in which the ports carry
the results (R82). The operand of `RING_PUSH` is its word's data byte as it is (R83). -/

namespace Sys2Proof.Machine

/-- `DEFLEN + zext_9(b) - 1`, the threshold that the length byte `b` sets (R75, R123). -/
def extendedLength (b : Byte) : BitVec 9 := BitVec.ofNat 9 defaultLength + b.setWidth 9 - 1

/-- The result of `RING_POP` on the port: `valid[0] ++ byte[7:0]` (R82). -/
def popResult : Option Byte → Delivery
  | some b => .pop ((1#1 : BitVec 1) ++ b)
  | none => .pop ((0#1 : BitVec 1) ++ (0x00 : Byte))

/-- The result of `RING_SIZE` on the port: 8 bits (R82). -/
def sizeResult (n : Nat) : Delivery := .size (BitVec.ofNat 8 n)

/-- The result of `FEED` on the port: `len[6:0]`, then the bytes; `len = 0` and no bytes for `none` (R82). -/
def feedResult : Option (List Byte) → Delivery
  | some bytes => .feed (BitVec.ofNat 7 bytes.length) bytes
  | none => .feed 0 []

end Sys2Proof.Machine
end

