-- ==== Sys2Proof/Machine/Ops.lean ====
section
/-! DEFINITION. The named operations over the two byte arrays (R50 to R55), the ring (R101, R102), the state's ports and
labels, and the hardware reset (R170, R173). The block takes no exception and returns from none (R150, R158, R159): where
a processor would trap, it notes a label and goes on. -/

namespace Sys2Proof.Machine

/-- The written byte at address `a`, if one has been written. -/
def Memory.lookup : Memory → Nat → Option Byte
  | [], _ => none
  | c :: m, a => if c.1 = a then some c.2 else Memory.lookup m a

/-- Write byte `v` at address `a`, keeping the addresses rising. -/
def Memory.store : Memory → Nat → Byte → Memory
  | [], a, v => [(a, v)]
  | c :: m, a, v =>
    if a < c.1 then (a, v) :: c :: m
    else if a = c.1 then (a, v) :: m
    else c :: Memory.store m a v

/-- The canonical form: addresses strictly rising. A listed slot is never equal to what an unlisted one holds, since an
unlisted one has not been written. -/
abbrev Memory.wf (m : Memory) : Prop := m.Pairwise fun c d => c.1 < d.1

/-- Every listed address is one of the array's `n` slots (R50). -/
abbrev Memory.within (n : Nat) (m : Memory) : Prop := ∀ c ∈ m, c.1 < n

/-- `ring[i]` (R15, R51): an unwritten slot holds a free value (R41). -/
def ringRead (r : RingBuffer) (i : Nat) : Byte := (Memory.lookup r.slots i).getD (Config.ringFill r.fill i)

/-- `out[i]` (R15, R52): an unwritten slot holds a free value (R44). -/
def outRead (a : Assembly) (i : Nat) : Byte := (Memory.lookup a.out i).getD (Config.outFill a.fill i)

/-- `ring[i] <- b` (R15). -/
def ringWrite (r : RingBuffer) (i : Nat) (b : Byte) : RingBuffer := { r with slots := Memory.store r.slots i b }

/-- `out[i] <- b` (R15). -/
def outWrite (a : Assembly) (i : Nat) (b : Byte) : Assembly := { a with out := Memory.store a.out i b }

/-- The store of `RING_PUSH` into a ring that is not full: the byte first, then `head` (R101, R60). -/
def pushByte (r : RingBuffer) (b : Byte) : RingBuffer :=
  { ringWrite r r.head.toNat b with head := nextIndex r.head }

/-- `RING_POP` (R102): the oldest byte and the ring without it; `none` when the ring is empty. -/
def popByte (r : RingBuffer) : Option (Byte × RingBuffer) :=
  if ringEmpty r then none else some (ringRead r r.tail.toNat, { r with tail := nextIndex r.tail })

/-- The bytes `out[0 .. n)` (R14, R52). -/
def frameBytes (a : Assembly) (n : Nat) : List Byte := (List.range n).map (outRead a)

/-- The bytes held, in order of arrival: `ring[tail], ..., ring[(head-1) mod N]` (R33). -/
def heldBytes (r : RingBuffer) : List Byte :=
  (List.range (ringSize r)).map fun k => ringRead r ((r.tail.toNat + k) % ringSlots)

/-- Attach a label to the step (R151). -/
def note (e : Event) (s : State) : State := { s with events := s.events ++ [e] }

/-- Attach the label a step may carry (R151). -/
def noteAll : Option Event → State → State
  | some e, s => note e s
  | none, s => s

/-- Hand a result to the consumer (R82). -/
def deliver (d : Delivery) (s : State) : State := { s with delivered := s.delivered ++ [d] }

/-- `head <- 0; tail <- 0` (R100). -/
def clearRing (r : RingBuffer) : RingBuffer := { r with head := 0, tail := 0 }

/-- `position <- 0; leading_byte <- 0x00; expected_length <- EXP_INIT` (R131). -/
def clearAssembly (a : Assembly) : Assembly :=
  { a with position := 0, leadingByte := 0x00, expectedLength := expInit }

/-- The contents of `ring` after a hardware reset are unspecified (R41): fresh free values (assumption 6). -/
def forgetSlots (r : RingBuffer) : RingBuffer := { r with slots := [], fill := r.fill + 1 }

/-- The contents of `out` after a hardware reset are unspecified (R44): fresh free values (assumption 6). -/
def forgetOut (a : Assembly) : Assembly := { a with out := [], fill := a.fill + 1 }

/-- The hardware reset (R170): `RING_RESET` and `ASM_RESET` in one transition. A `FEED` in progress is abandoned and
delivers no result; a command presented at the same instant is not performed (R173). That its word is taken from the port
and those behind it stay is the model's choice; so is that the fetch has refused, before this, a word that the port does
not accept (DESIGN CHOICE, assumption 14). A port busy with a `FEED` has no command presented on it (R80). -/
def hardwareReset (producerPresents consumerPresents : Bool) (s : State) : State :=
  { s with
    ring := forgetSlots (clearRing s.ring)
    asm := forgetOut (clearAssembly s.asm)
    feeding := false
    producerPort := if producerPresents then s.producerPort.tail else s.producerPort
    consumerPort := if consumerPresents && !s.feeding then s.consumerPort.tail else s.consumerPort }

end Sys2Proof.Machine
end

