-- ==== Sys2Proof/Machine/ByteStep.lean ====
section
/-! DEFINITION. `STEP b`, the per-byte transition of the frame assembly state, clause by clause (R120 to R126). It is
internal: only `FEED` applies it, to each byte it pops. -/

namespace Sys2Proof.Machine

/-- What one `STEP` gives: the assembly state, the completed frame if there is one, the label if there is one. -/
structure StepResult where
  asm : Assembly
  frame : Option (List Byte)
  label : Option Event
deriving DecidableEq, Repr

/-- Acceptance of a frame start (R122), reached at `position == 0` only by a byte of `LEAD`. -/
def startClause (a : Assembly) (b : Byte) : Assembly :=
  if a.position = 0 then { a with leadingByte := b, expectedLength := expInit } else a

/-- Length extension at the tap point (R123). -/
def tapClause (a : Assembly) (b : Byte) : Assembly :=
  if a.position.toNat = defaultLength - 1 ∧ a.leadingByte ∈ varLeadBytes then
    { a with expectedLength := extendedLength b }
  else a

/-- Store (R124). -/
def storeClause (a : Assembly) (b : Byte) : Assembly :=
  { outWrite a a.position.toNat b with position := a.position + 1 }

/-- Completion test, strict, on the position after the store (R125). -/
def completionClause (a : Assembly) : StepResult :=
  if a.expectedLength.toNat < a.position.toNat then
    { asm := { a with position := 0 }, frame := some (frameBytes a a.position.toNat), label := none }
  else { asm := a, frame := none, label := none }

/-- Output buffer exhausted (R126; conflict C2). -/
def exhaustedClause (a : Assembly) (b : Byte) : StepResult :=
  { asm := { a with position := 0, leadingByte := 0x00 }, frame := none, label := some (.oversize b) }

/-- `STEP b` (R120), the tests in its order (R156). -/
def stepByte (a : Assembly) (b : Byte) : StepResult :=
  if a.position = 0 ∧ b ∉ leadBytes then { asm := a, frame := none, label := some (.noise b) }
  else
    let a := startClause a b
    if a.position.toNat < maxFrame then completionClause (storeClause (tapClause a b) b)
    else exhaustedClause a b

/-- What `FEED` does with the result of a `STEP` (R130): a completed frame ends the `FEED` and is its result; otherwise the
`FEED` goes on. -/
def finishByte (r : StepResult) (s : State) : State :=
  match r.frame with
  | some bytes => deliver (feedResult (some bytes)) (noteAll r.label { s with asm := r.asm, feeding := false })
  | none => noteAll r.label { s with asm := r.asm, feeding := true }

/-- The `STEP` of a byte that `FEED` has popped, and the loop's test (R130). -/
def consumeByte (b : Byte) (s : State) : State := finishByte (stepByte s.asm b) s

/-- One atomic iteration of `FEED` (R130): a `RING_POP` and the `STEP` of its byte, or the result `none` when the ring is
empty. -/
def feedIteration (s : State) : State :=
  match popByte s.ring with
  | some (b, r) => consumeByte b { s with ring := r }
  | none => deliver (feedResult none) (note .starved { s with feeding := false })

end Sys2Proof.Machine
end

