-- ==== Sys2Proof/Machine/Frames.lean ====
section
/-! DEFINITION. The meanings of the nine leading bytes (R76): each is what `FEED` does with that byte once it has popped
it, `STEP` (R120) and the loop's test (R130). At `position == 0` it is the acceptance of a frame start (R122, R124); the
same byte value inside a frame is data (R77). Taking the byte from the ring is the fetch's part (assumption 3). -/

namespace Sys2Proof.Machine

/-- Leading byte 0x62, "touch button" (R76, R122). -/
def execLead62 (s : State) : Host.Outcome State Fault Refusal := .next (consumeByte 0x62 s)

/-- Leading byte 0x60, "touch checkbox" (R76, R122). -/
def execLead60 (s : State) : Host.Outcome State Fault Refusal := .next (consumeByte 0x60 s)

/-- Leading byte 0x67, "touch slider" (R76, R122). -/
def execLead67 (s : State) : Host.Outcome State Fault Refusal := .next (consumeByte 0x67 s)

/-- Leading byte 0x75, "get edit value" (R76, R122). -/
def execLead75 (s : State) : Host.Outcome State Fault Refusal := .next (consumeByte 0x75 s)

/-- Leading byte 0x71, "get page" (R76, R122). -/
def execLead71 (s : State) : Host.Outcome State Fault Refusal := .next (consumeByte 0x71 s)

/-- Leading byte 0x64, "get checkbox" (R76, R122). -/
def execLead64 (s : State) : Host.Outcome State Fault Refusal := .next (consumeByte 0x64 s)

/-- Leading byte 0x68, "get slider" (R76, R122). -/
def execLead68 (s : State) : Host.Outcome State Fault Refusal := .next (consumeByte 0x68 s)

/-- Leading byte 0x7B, "touch edit" (R76, R122). -/
def execLead7B (s : State) : Host.Outcome State Fault Refusal := .next (consumeByte 0x7B s)

/-- Leading byte 0x7C, "get touch edit value" (R76, R122). -/
def execLead7C (s : State) : Host.Outcome State Fault Refusal := .next (consumeByte 0x7C s)

end Sys2Proof.Machine
end

