-- ==== Sys2Proof/Machine/Reassembler.lean ====
section
/-! DEFINITION. The meanings of the reassembler operations `FEED` (R130) and `ASM_RESET` (R131), and of the reserved
command words (R84). -/

namespace Sys2Proof.Machine

/-- `FEED` (R130): its next atomic iteration. While it goes on, the consumer port stays busy (`feeding`) and the
consumer's next turn makes the next iteration (assumption 2). -/
def execFeed (s : State) : Host.Outcome State Fault Refusal := .next (feedIteration s)

/-- `ASM_RESET` (R131). -/
def execAsmReset (s : State) : Host.Outcome State Fault Refusal :=
  .next { s with asm := clearAssembly s.asm }

/-- The words with `op` 6 and 7: "A model must *refuse* all of these" (R84). -/
def execReservedOp (_low : BitVec 9) (_s : State) : Host.Outcome State Fault Refusal := .refused .reservedCommand

end Sys2Proof.Machine
end

