-- ==== Sys2Proof/Machine/Ring.lean ====
section
/-! DEFINITION. The meanings of the ring buffer operations (R100 to R103). Each is one atomic transition and completes in
every state (R107). -/

namespace Sys2Proof.Machine

/-- `RING_RESET` (R100). -/
def execRingReset (s : State) : Host.Outcome State Fault Refusal :=
  .next { s with ring := clearRing s.ring }

/-- `RING_PUSH b` (R101): nothing is returned, and a byte that finds the ring full is dropped (R152). -/
def execRingPush (b : BitVec 8) (s : State) : Host.Outcome State Fault Refusal :=
  if ringFull s.ring then .next (note (.overflow b) s) else .next { s with ring := pushByte s.ring b }

/-- `RING_POP` (R102). -/
def execRingPop (s : State) : Host.Outcome State Fault Refusal :=
  match popByte s.ring with
  | some (b, r) => .next (deliver (popResult (some b)) { s with ring := r })
  | none => .next (deliver (popResult none) s)

/-- `RING_SIZE` (R103). -/
def execRingSize (s : State) : Host.Outcome State Fault Refusal :=
  .next (deliver (sizeResult (ringSize s.ring)) s)

end Sys2Proof.Machine
end

