-- ==== Sys2Proof/Machine/Dispatch.lean ====
section
/-! DEFINITION. One arm per instruction. -/

namespace Sys2Proof.Machine

def exec (i : Instr) (s : State) : Host.Outcome State Fault Refusal :=
  match i with
  | .ringReset => Sys2Proof.Machine.execRingReset s
  | .ringPush b => Sys2Proof.Machine.execRingPush b s
  | .ringPop => Sys2Proof.Machine.execRingPop s
  | .ringSize => Sys2Proof.Machine.execRingSize s
  | .feed => Sys2Proof.Machine.execFeed s
  | .asmReset => Sys2Proof.Machine.execAsmReset s
  | .reservedOp low => Sys2Proof.Machine.execReservedOp low s
  | .lead62 => Sys2Proof.Machine.execLead62 s
  | .lead60 => Sys2Proof.Machine.execLead60 s
  | .lead67 => Sys2Proof.Machine.execLead67 s
  | .lead75 => Sys2Proof.Machine.execLead75 s
  | .lead71 => Sys2Proof.Machine.execLead71 s
  | .lead64 => Sys2Proof.Machine.execLead64 s
  | .lead68 => Sys2Proof.Machine.execLead68 s
  | .lead7B => Sys2Proof.Machine.execLead7B s
  | .lead7C => Sys2Proof.Machine.execLead7C s

end Sys2Proof.Machine
end

