-- ==== Sys2Proof/WellFormed.lean ====
section
/-! DEFINITION. Well-formed instructions: an instruction is ill-formed when the spec gives its word no meaning anywhere
(R84, R150), and a command is ill-formed on a port that does not accept it (R80). -/

namespace Sys2Proof

/-- Every instruction but a reserved command word is well-formed (R84). -/
def Instr.wellFormed : Instr → Bool
  | .reservedOp _ => false
  | _ => true

/-- Which port accepts which command (R80): the producer port accepts `RING_PUSH` only; the consumer port the other
five. A leading byte is no command: it comes through the ring. -/
def Instr.acceptedOn : Port → Instr → Bool
  | .producer, .ringPush _ => true
  | .consumer, .ringReset => true
  | .consumer, .ringPop => true
  | .consumer, .ringSize => true
  | .consumer, .feed => true
  | .consumer, .asmReset => true
  | _, _ => false

end Sys2Proof
end

