-- ==== Sys2Proof/Decode.lean ====
section
/-! DEFINITION. Decoding of command words (R81 to R84) and of leading bytes (R76, R77), the encoder, the opcode table's
match and mask of each instruction, and the assembler's lines (R85). -/

namespace Sys2Proof

/-- Why a word or a byte is no instruction. -/
inductive DecodeError where
  /-- One of the 247 byte values that start no frame (R77). -/
  | notALeadingByte (b : Byte)
  /-- A command on a port that does not accept it (R84). -/
  | wrongPort (p : Port)
deriving DecidableEq, Repr

/-- What an instruction is encoded in: a command word on a port (R81), or byte 0 of an inbound frame (R70, R76). -/
inductive CodeUnit where
  | command (w : CmdWord)
  | frameByte (b : Byte)
deriving DecidableEq, Repr

/-- `op`, bits 10:8 of a command word (R81). -/
def opField (w : CmdWord) : BitVec 3 := w.extractLsb' 8 3

/-- `data`, bits 7:0 of a command word (R81). -/
def dataField (w : CmdWord) : Byte := w.extractLsb' 0 8

/-- The operation a command word selects (R81); the `data` bits are read by `RING_PUSH` alone (R83); `op` 6 and 7 are
the reserved words (R84). -/
def decodeCommand (w : CmdWord) : Instr :=
  match (opField w).toNat with
  | 0 => .ringReset
  | 1 => .ringPush (dataField w)
  | 2 => .ringPop
  | 3 => .ringSize
  | 4 => .feed
  | 5 => .asmReset
  | _ => .reservedOp (w.extractLsb' 0 9)

/-- A command word presented on port `p`: a word of an operation that the port does not accept is rejected (R84); a
reserved word is the reserved instruction, on either port, and its meaning refuses it. -/
def decodeCommandAt (p : Port) (w : CmdWord) : Except DecodeError Instr :=
  let i := decodeCommand w
  if i.wellFormed && !i.acceptedOn p then .error (.wrongPort p) else .ok i

/-- The frame start that byte 0 of a frame is (R76); every other byte value starts no frame (R77). -/
def decodeLead (b : Byte) : Except DecodeError Instr :=
  match b.toNat with
  | 0x62 => .ok .lead62
  | 0x60 => .ok .lead60
  | 0x67 => .ok .lead67
  | 0x75 => .ok .lead75
  | 0x71 => .ok .lead71
  | 0x64 => .ok .lead64
  | 0x68 => .ok .lead68
  | 0x7B => .ok .lead7B
  | 0x7C => .ok .lead7C
  | _ => .error (.notALeadingByte b)

/-- The instruction of a code unit. -/
def decode : CodeUnit → Except DecodeError Instr
  | .command w => .ok (decodeCommand w)
  | .frameByte b => decodeLead b

/-- The command word with operation code `op` and operand byte `data` (R81). -/
def commandWord (op : BitVec 3) (data : Byte) : CmdWord := op ++ data

/-- The encoding of an instruction: the assembler writes ignored `data` bits as 0x00 (R83). -/
def encode : Instr → CodeUnit
  | .ringReset => .command (commandWord 0 0)
  | .ringPush b => .command (commandWord 1 b)
  | .ringPop => .command (commandWord 2 0)
  | .ringSize => .command (commandWord 3 0)
  | .feed => .command (commandWord 4 0)
  | .asmReset => .command (commandWord 5 0)
  | .reservedOp low => .command ((3#2 : BitVec 2) ++ low)
  | .lead62 => .frameByte 0x62
  | .lead60 => .frameByte 0x60
  | .lead67 => .frameByte 0x67
  | .lead75 => .frameByte 0x75
  | .lead71 => .frameByte 0x71
  | .lead64 => .frameByte 0x64
  | .lead68 => .frameByte 0x68
  | .lead7B => .frameByte 0x7B
  | .lead7C => .frameByte 0x7C

/-- The opcode table's `match` of an instruction's row. -/
def rowMatch : Instr → CodeUnit
  | .ringReset => .command 0x000
  | .ringPush _ => .command 0x100
  | .ringPop => .command 0x200
  | .ringSize => .command 0x300
  | .feed => .command 0x400
  | .asmReset => .command 0x500
  | .reservedOp _ => .command 0x600
  | .lead62 => .frameByte 0x62
  | .lead60 => .frameByte 0x60
  | .lead67 => .frameByte 0x67
  | .lead75 => .frameByte 0x75
  | .lead71 => .frameByte 0x71
  | .lead64 => .frameByte 0x64
  | .lead68 => .frameByte 0x68
  | .lead7B => .frameByte 0x7B
  | .lead7C => .frameByte 0x7C

/-- The bits of an instruction's code unit that its row's `mask` keeps: 0x700 of a command word, 0x600 of a reserved
one, all eight of a leading byte. -/
def maskedBy (i : Instr) : CodeUnit → CodeUnit
  | .command w => .command (if i.wellFormed then w &&& 0x700 else w &&& 0x600)
  | .frameByte b => .frameByte (b &&& 0xFF)

/-- The instruction that the opcode table's bits `w` are: a row of 8 bits is a leading byte, a longer one (11 bits, two
whole bytes) a command word, which has no bits above bit 10 (R87). -/
def decodeTableWord (nbits w : Nat) : Option Instr :=
  if nbits ≤ 8 then
    if w < 2 ^ 8 then (decodeLead (BitVec.ofNat 8 w)).toOption else none
  else
    if w < 2 ^ 11 then some (decodeCommand (BitVec.ofNat 11 w)) else none

/-- One hexadecimal digit of an assembler operand (R85). -/
def hexDigit (n : Nat) : String :=
  (["0", "1", "2", "3", "4", "5", "6", "7", "8", "9", "A", "B", "C", "D", "E", "F"]).getD n "0"

/-- The assembler's line of a command, with the agent that issues it (R85); the other rows have none. -/
def assemblerLine : Instr → Option String
  | .ringReset => some "C: RING_RESET"
  | .ringPush b => some ("P: RING_PUSH 0x" ++ hexDigit (b.toNat / 16) ++ hexDigit (b.toNat % 16))
  | .ringPop => some "C: RING_POP"
  | .ringSize => some "C: RING_SIZE"
  | .feed => some "C: FEED"
  | .asmReset => some "C: ASM_RESET"
  | _ => none

/-- `PUSHSEQ b0 b1 ... bk`, expanded in that order (R86). -/
def pushSeq (bytes : List Byte) : List Instr := bytes.map .ringPush

/-- `RESYNC` is `RING_RESET; ASM_RESET` (R86). -/
def resync : List Instr := [.ringReset, .asmReset]

end Sys2Proof
end

