-- ==== Sys2Proof/Machine/Fetch.lean ====
section
/-! DEFINITION. What the next turn runs (R59, R80): a command word from an agent's port, the next iteration of a `FEED`
in progress, a hardware reset, or nothing. And where an instruction is placed so that the next step fetches it. -/

namespace Sys2Proof.Machine

/-- What a turn comes to before any instruction runs. -/
inductive Fetched where
  /-- Run `i` at `s`, from which the turn and the word or byte of `i` have been taken. -/
  | run (i : Instr) (s : State)
  /-- The turn runs no instruction and leaves `s`. -/
  | settled (s : State)
  /-- The word presented is refused (R84). -/
  | refuse (r : Refusal)
deriving DecidableEq, Repr

/-- The next iteration of a `FEED` (R130). While idle, a byte of `LEAD` at the front of the ring is taken as the frame
start it is (R122, R76); in every other case the iteration is `FEED`'s own. -/
def fetchFeed (s : State) : Fetched :=
  if s.asm.position = 0 then
    match popByte s.ring with
    | some (b, r) =>
      match decodeLead b with
      | .ok i => .run i { s with ring := r }
      | .error _ => .run .feed s
    | none => .run .feed s
  else .run .feed s

/-- A command word that port `p` has presented (R80, R84). -/
def fetchCommand (p : Port) (w : CmdWord) (s : State) : Fetched :=
  match decodeCommandAt p w with
  | .error _ => .refuse .wrongPort
  | .ok .feed => fetchFeed s
  | .ok i => .run i s

/-- The producer's turn: the next word of its port, if it presents one. -/
def fetchProducer (s : State) : Fetched :=
  match s.producerPort with
  | [] => .settled s
  | w :: ws => fetchCommand .producer w { s with producerPort := ws }

/-- The consumer's turn: while its port is busy, the next iteration of its `FEED`; else the next word of its port. -/
def fetchConsumer (s : State) : Fetched :=
  if s.feeding then fetchFeed s
  else
    match s.consumerPort with
    | [] => .settled s
    | w :: ws => fetchCommand .consumer w { s with consumerPort := ws }

/-- How port `p` refuses command word `w`: as a reserved word, or as an operation that it does not accept (R84). -/
def refusalOn (p : Port) (w : CmdWord) : Option Refusal :=
  match decodeCommandAt p w with
  | .error _ => some .wrongPort
  | .ok i => if i.wellFormed then none else some .reservedCommand

/-- The refusal of the word that port `p` presents at the instant of a hardware reset, if it presents one. -/
def presentedRefusal (p : Port) (presents : Bool) (words : List CmdWord) : Option Refusal :=
  if presents then words.head?.bind (refusalOn p) else none

/-- The refusal of a hardware reset's turn. R173 says that a command presented at the same instant is not performed, and
not whether a word that R84 refuses is still refused then. DESIGN CHOICE (assumption 14): it is, since "a run that presents
one is outside the spec"; of two such words the producer's names the refusal. A port busy with a `FEED` presents none. -/
def resetRefusal (producerPresents consumerPresents : Bool) (s : State) : Option Refusal :=
  (presentedRefusal .producer producerPresents s.producerPort).or
    (presentedRefusal .consumer (consumerPresents && !s.feeding) s.consumerPort)

/-- The hardware reset's turn (R170, R173). -/
def fetchReset (producerPresents consumerPresents : Bool) (s : State) : Fetched :=
  match resetRefusal producerPresents consumerPresents s with
  | some r => .refuse r
  | none => .settled (hardwareReset producerPresents consumerPresents s)

/-- The next turn. With no turn left the block waits for commands (R172). -/
def fetch (s : State) : Fetched :=
  match s.schedule with
  | [] => .settled s
  | .producer :: rest => fetchProducer { s with schedule := rest }
  | .consumer :: rest => fetchConsumer { s with schedule := rest }
  | .hardwareReset p c :: rest => fetchReset p c { s with schedule := rest }

/-- Present word `w` as the next command: a `RING_PUSH` word on the producer port, any other on the consumer port, which
is then not busy; that agent has the next turn. -/
def presentWord (w : CmdWord) (s : State) : State :=
  if (decodeCommand w).acceptedOn .producer then
    { s with producerPort := w :: s.producerPort, schedule := .producer :: s.schedule }
  else
    { s with consumerPort := w :: s.consumerPort, schedule := .consumer :: s.schedule, feeding := false }

/-- Put byte `b` at the front of the ring (in the slot at `tail`, making an empty ring hold one byte), for a `FEED` in
progress with the reassembler idle; the consumer has the next turn. -/
def presentFrameByte (b : Byte) (s : State) : State :=
  let r := ringWrite s.ring s.ring.tail.toNat b
  { s with
    ring := if ringEmpty r then { r with head := nextIndex r.head } else r
    asm := { s.asm with position := 0 }
    feeding := true
    schedule := .consumer :: s.schedule }

end Sys2Proof.Machine
end

