-- ==== Sys2Proof/Machine/Step.lean ====
section
/-! DEFINITION. One step of the machine: one atomic transition of the agent whose turn it is (R16, R59). -/

namespace Sys2Proof.Machine

/-- One step: run what the next turn fetches. -/
def step (s : State) : Host.Outcome State Fault Refusal :=
  match fetch s with
  | .run i s => exec i s
  | .settled s => .next s
  | .refuse r => .refused r

/-- `s` with the instruction whose opcode-table bits are `w` placed so that the next step runs it: a leading byte (8 bits)
at the front of the ring of a `FEED` in progress, a command word (11 bits) on its port. Bits the unit does not have are
dropped. Assumption 9. -/
def State.withFetchWord (s : State) (nbits w : Nat) : State :=
  if nbits ≤ 8 then presentFrameByte (BitVec.ofNat 8 w) s else presentWord (BitVec.ofNat 11 w) s

end Sys2Proof.Machine
end

