-- ==== Sys2Proof/Machine/Pseudo.lean ====
section
/-! DEFINITION. A `FEED`, and the pseudo-operation `DRAIN`, run from end to end with no transition of the producer in
between (R86, R130 (f)). `PUSHSEQ` and `RESYNC` expand to lists of operations (Decode.lean). -/

namespace Sys2Proof.Machine

/-- At most `k` iterations of a `FEED`, stopping when it delivers its result (R130). -/
def feedLoop : Nat → State → State
  | 0, s => s
  | k + 1, s =>
    let t := feedIteration s
    if t.feeding then feedLoop k t else t

/-- A whole `FEED` with no push inside it: at most `size + 1` iterations (R130 (f)). -/
def feedWhole (s : State) : State := feedLoop (ringSize s.ring + 1) s

/-- The frame of a result of `FEED`; `len = 0` is `none` (R82). -/
def deliveredFrame : Delivery → Option (List Byte)
  | .feed len bytes => if len = 0 then none else some bytes
  | _ => none

/-- At most `k` `FEED`s, stopping at the first that returns `none`; the frames returned, in order, and the state. -/
def drainLoop : Nat → State → List (List Byte) × State
  | 0, s => ([], s)
  | k + 1, s =>
    let t := feedWhole s
    match t.delivered.getLast?.bind deliveredFrame with
    | some frame =>
      let rest := drainLoop k t
      (frame :: rest.1, rest.2)
    | none => ([], t)

/-- `DRAIN`: `FEED` repeated until a `FEED` returns `none`; its result is the list of frames returned, in order (R86).
Each `FEED` that returns a frame takes at least one byte, so `size + 1` of them suffice. -/
def drain (s : State) : List (List Byte) × State := drainLoop (ringSize s.ring + 1) s

end Sys2Proof.Machine
end

