-- ==== Sys2Proof/Safety.lean ====
section
/-! DEFINITION. The terms the claims use: what always holds of the state (R38, R39), a run that stays within the agents'
rights (R162), the effect of a byte stream on the reassembler (R132), and the bounded queue the ring is an
implementation of (R33, R62, R105, R106). -/

namespace Sys2Proof.Machine

/-- Both arrays are in canonical form and list only addresses of their own (R50). -/
structure State.SlotsOk (s : State) : Prop where
  ringRising : Memory.wf s.ring.slots
  ringInside : Memory.within ringSlots s.ring.slots
  outRising : Memory.wf s.asm.out
  outInside : Memory.within maxFrame s.asm.out

/-- What always holds of the frame assembly state once the block has been reset (R20, R38 (a), R39 (a) to (d), (f)). -/
structure Assembly.Inv (a : Assembly) : Prop where
  /-- R38 (a) -/
  positionBound : a.position.toNat ≤ maxFrame
  /-- R39 (b) -/
  thresholdRange : 5 ≤ a.expectedLength.toNat ∧ a.expectedLength.toNat ≤ 260
  /-- R20 -/
  opcodeRange : a.leadingByte = 0x00 ∨ a.leadingByte ∈ leadBytes
  /-- R39 (a) -/
  opcodeIsFirst : 0 < a.position.toNat → a.leadingByte ∈ leadBytes ∧ outRead a 0 = a.leadingByte
  /-- R39 (b) -/
  headerThreshold : 0 < a.position.toNat → a.position.toNat ≤ defaultLength - 1 → a.expectedLength = expInit
  /-- R39 (b) -/
  fixedThreshold : 0 < a.position.toNat → a.leadingByte ∈ fixLeadBytes → a.expectedLength = expInit
  /-- R79: past the length byte of a variable-class frame the threshold is `DEFLEN + n - 1` -/
  varThreshold : defaultLength ≤ a.position.toNat → a.leadingByte ∈ varLeadBytes →
    a.expectedLength = extendedLength (outRead a 5)
  /-- R39 (c) -/
  notPassed : 0 < a.position.toNat → a.position.toNat ≤ a.expectedLength.toNat
  /-- R39 (d) -/
  longIsVar : 7 ≤ a.position.toNat → a.leadingByte ∈ varLeadBytes ∧ 2 ≤ (outRead a 5).toNat
  /-- R39 (d) -/
  fullIsOverlong : a.position.toNat = maxFrame → 65 ≤ a.expectedLength.toNat ∧ 60 ≤ (outRead a 5).toNat
  /-- R39 (f) -/
  framed : ∀ i < a.position.toNat, (Memory.lookup a.out i).isSome

/-- Every held slot of the ring has been written (R39 (f)). -/
def RingBuffer.HeldWritten (r : RingBuffer) : Prop :=
  ∀ k < ringSize r, (Memory.lookup r.slots ((r.tail.toNat + k) % ringSlots)).isSome

/-- The invariant of the block between any two transitions (R39). -/
structure State.Inv (s : State) : Prop where
  slots : s.SlotsOk
  assembly : s.asm.Inv
  held : s.ring.HeldWritten

/-- Every word on a port is one the port accepts: the agents stay within their rights (R80, R84, R162). -/
def State.PortsLegal (s : State) : Prop :=
  (∀ w ∈ s.producerPort, (decodeCommand w).acceptedOn .producer = true) ∧
  (∀ w ∈ s.consumerPort, (decodeCommand w).acceptedOn .consumer = true)

/-- What a byte stream does to the reassembler: the state it leaves, the frames completed and the labels, in order. -/
structure Absorbed where
  asm : Assembly
  frames : List (List Byte)
  labels : List Event
deriving DecidableEq, Repr

/-- `STEP` applied to each byte in turn (R120, R132). -/
def absorb : Assembly → List Byte → Absorbed
  | a, [] => { asm := a, frames := [], labels := [] }
  | a, b :: bs =>
    let r := stepByte a b
    let rest := absorb r.asm bs
    { asm := rest.asm, frames := r.frame.toList ++ rest.frames, labels := r.label.toList ++ rest.labels }

/-- The operations of the ring buffer (R100 to R103). -/
def isRingOp : Instr → Bool
  | .ringReset => true
  | .ringPush _ => true
  | .ringPop => true
  | .ringSize => true
  | _ => false

/-- A run of instructions one after the other, with no other transition in between; none if one stops. -/
def runInstrs : List Instr → State → Option State
  | [], s => some s
  | i :: is, s =>
    match exec i s with
    | .next t => runInstrs is t
    | _ => none

/-- A stream in pieces: each piece is pushed and then drained before the next is pushed. The frames returned, in order,
and the state (R132). -/
def feedPieces : List (List Byte) → State → Option (List (List Byte) × State)
  | [], s => some ([], s)
  | piece :: pieces, s =>
    match runInstrs (pushSeq piece) s with
    | some t => (feedPieces pieces (drain t).2).map fun r => ((drain t).1 ++ r.1, r.2)
    | none => none

/-- The bounded first-in first-out queue the ring stands for: the bytes held, the results returned so far and the labels
so far (R33, R62, R105). -/
structure Queue where
  bytes : List Byte
  results : List Delivery
  labels : List Event
deriving DecidableEq, Repr

/-- One ring operation on the queue: a push appends unless 255 bytes are held, a pop takes the oldest. -/
def Queue.apply : Instr → Queue → Queue
  | .ringReset, q => { q with bytes := [] }
  | .ringPush b, q =>
    if q.bytes.length < 255 then { q with bytes := q.bytes ++ [b] } else { q with labels := q.labels ++ [.overflow b] }
  | .ringPop, q =>
    match q.bytes with
    | b :: rest => { q with bytes := rest, results := q.results ++ [popResult (some b)] }
    | [] => { q with results := q.results ++ [popResult none] }
  | .ringSize, q => { q with results := q.results ++ [sizeResult q.bytes.length] }
  | _, q => q

/-- The queue as the state shows it. -/
def State.queue (s : State) : Queue :=
  { bytes := heldBytes s.ring, results := s.delivered, labels := s.events }

end Sys2Proof.Machine
end

