-- ==== Sys2Proof/Certificates/Slice0/Obligations.lean ====
section
/-! DEFINITION. The statements about the block, each from the rules its docstring names. Where a docstring says "the spec's
own decision" or "the spec's own inference", the rule is so marked in spec/. -/

open Sys2Proof Sys2Proof.Machine

/-! ### Reset and waiting -/

/-- R40. -/
def Obligations.ResetLeavesTheRingEmpty : Prop :=
  State.reset.ring.head = 0 ∧ State.reset.ring.tail = 0 ∧ ringEmpty State.reset.ring = true ∧
  ringSize State.reset.ring = 0

/-- R42, R43 (the spec's own decision D7): "After reset `position == 0`: the reassembler is idle", "After reset
`expected_length == EXP_INIT == 6`", "and `leading_byte == 0x00`" (DESIGN CHOICE, assumptions 4 and 7). -/
def Obligations.ResetLeavesTheReassemblerIdle : Prop :=
  State.reset.asm.position = 0 ∧ State.reset.asm.expectedLength = 6 ∧ State.reset.asm.leadingByte = 0x00

/-- R171 (the spec's own inference): "After reset the ring is empty (`RING_SIZE -> 0`, `RING_POP -> none`, `FEED -> none`)
and the reassembler is idle." Results stand in the port format of R82 (the spec's own decision D11, assumption 21), labels
are R151's (decision D14, assumption 8). -/
def Obligations.ResetAnswersEmpty : Prop :=
  exec .ringSize State.reset = .next { State.reset with delivered := [.size 0] } ∧
  exec .ringPop State.reset = .next { State.reset with delivered := [.pop 0x000] } ∧
  exec .feed State.reset = .next { State.reset with delivered := [.feed 0 []], events := [.starved] }

/-- R172 (the spec's own decision D6): "the block executes nothing on its own after reset and waits for commands". The
schedule is the model's (assumptions 1 and 13): with no turn left, or on a turn of an agent that presents nothing, nothing
changes but that the turn is over. -/
def Obligations.BlockWaitsForCommands : Prop :=
  ∀ s : State,
    (s.schedule = [] → step s = .next s) ∧
    (∀ rest, s.schedule = .producer :: rest → s.producerPort = [] → step s = .next { s with schedule := rest }) ∧
    (∀ rest, s.schedule = .consumer :: rest → s.consumerPort = [] → s.feeding = false →
      step s = .next { s with schedule := rest })

/-- R170, R173 (the spec's own decision D7): the hardware reset is `RING_RESET` followed by `ASM_RESET` in one transition;
"A `FEED` in progress is abandoned and delivers no result; a command presented at the same instant as the reset is not
performed". Of the contents of the arrays nothing is said (R41, R44). The premises say that each port presents nothing or
a word that it accepts: where it presents another the step is refused, the model's choice (assumption 14; see
ReservedAndWrongPortWordsAreRefused). The values 6 and 0x00 are assumptions 4 and 7 (DESIGN CHOICE). -/
def Obligations.HardwareResetIsBothResets : Prop :=
  ∀ (s : State) (p c : Bool) (rest : List Turn), s.schedule = .hardwareReset p c :: rest →
    (p = true → ∀ w ∈ s.producerPort.head?, (decodeCommand w).acceptedOn .producer = true) →
    (c = true → s.feeding = false → ∀ w ∈ s.consumerPort.head?, (decodeCommand w).acceptedOn .consumer = true) →
    ∃ t u, step s = .next t ∧ runInstrs resync s = some u ∧
      t.ring.head = u.ring.head ∧ t.ring.tail = u.ring.tail ∧ t.asm.position = u.asm.position ∧
      t.asm.expectedLength = u.asm.expectedLength ∧ t.asm.leadingByte = u.asm.leadingByte ∧
      ringSize t.ring = 0 ∧ t.asm.position = 0 ∧ t.asm.expectedLength = 6 ∧ t.asm.leadingByte = 0x00 ∧
      t.feeding = false ∧ t.delivered = s.delivered ∧ t.events = s.events ∧ t.schedule = rest ∧
      t.producerPort = (if p then s.producerPort.tail else s.producerPort) ∧
      t.consumerPort = (if c && !s.feeding then s.consumerPort.tail else s.consumerPort)

/-! ### Encoding, ports and fetch -/

/-- R81, R83, R76, R80 (the encoding of the operations is the spec's own decision D11). Decoding the encoding of an
instruction gives it back, with every operand; and on a port that accepts the instruction its word is accepted as it. DESIGN
CHOICE, assumption 21. -/
def Obligations.DecodeEncodeAgree : Prop :=
  ∀ i : Instr, decode (encode i) = .ok i ∧
    ∀ p, i.acceptedOn p = true → ∃ w, encode i = .command w ∧ decodeCommand w = i ∧ decodeCommandAt p w = .ok i

/-- R81, R83 (the spec's own decision D11): "A word selects an operation when `cw AND mask == match`". Every word meets the
mask and match of the row it decodes to, and of no other row; the operand of `RING_PUSH` is `cw - 0x100` (R101). DESIGN
CHOICE, assumption 21. -/
def Obligations.EveryWordHasOneRow : Prop :=
  (∀ w : CmdWord, maskedBy (decodeCommand w) (.command w) = rowMatch (decodeCommand w) ∧
    ∀ i : Instr, maskedBy i (.command w) = rowMatch i → rowMatch i = rowMatch (decodeCommand w)) ∧
  ∀ b : Byte, decodeCommand (0x100 + b.setWidth 11) = .ringPush b

/-- Words written out from the tables of R81 and R76: 0x162 is `RING_PUSH 0x62`; ignored data bits change nothing; op 6 and 7
are reserved; 0x75 and 0x60 start frames; 0xAA and 0x61 do not. The words of R81 are the spec's own decision D11 (DESIGN
CHOICE, assumption 21). -/
def Obligations.SampleWordsDecode : Prop :=
  decodeCommand 0b00000000000#11 = .ringReset ∧ decodeCommand 0b00101100010#11 = .ringPush 0x62 ∧
  decodeCommand 0b01000000000#11 = .ringPop ∧ decodeCommand 0b01111111111#11 = .ringSize ∧
  decodeCommand 0b10000000000#11 = .feed ∧ decodeCommand 0b10110101010#11 = .asmReset ∧
  decodeCommand 0b11000000001#11 = .reservedOp 0b000000001#9 ∧
  decodeCommand 0b11100000001#11 = .reservedOp 0b100000001#9 ∧
  decodeLead 0b01110101#8 = .ok .lead75 ∧ decodeLead 0b01100000#8 = .ok .lead60 ∧
  decodeLead 0b10101010#8 = .error (.notALeadingByte 0xAA) ∧ decodeLead 0b01100001#8 = .error (.notALeadingByte 0x61)

/-- R12. The byte values that start a frame are the nine of `LEAD`; `VARLEAD` and `FIXLEAD` split them. -/
def Obligations.NineLeadingBytes : Prop :=
  ∀ b : Byte,
    (b ∈ leadBytes ↔ b = 0x62 ∨ b = 0x60 ∨ b = 0x67 ∨ b = 0x75 ∨ b = 0x71 ∨ b = 0x64 ∨ b = 0x68 ∨ b = 0x7B ∨ b = 0x7C) ∧
    (b ∈ varLeadBytes ↔ b = 0x75 ∨ b = 0x7C) ∧
    (b ∈ fixLeadBytes ↔ b ∈ leadBytes ∧ b ∉ varLeadBytes) ∧
    ((∃ i, decodeLead b = .ok i) ↔ b ∈ leadBytes)

/-- R84 (the spec's own decision D11): "A model must *refuse* all of these". The stop of the reserved words, at every state,
on whichever port, and of every word on a port that does not accept it; at the instant of a hardware reset too, which is the
model's choice, as is that the producer's word then names the refusal (assumption 14). A word waits while a `FEED` keeps its
port busy (R80). Which name a refusal has is assumption 11 (DEDUCED). -/
def Obligations.ReservedAndWrongPortWordsAreRefused : Prop :=
  (∀ (low : BitVec 9) (s : State), exec (.reservedOp low) s = .refused .reservedCommand) ∧
  (∀ (s : State) (w : CmdWord) (ws : List CmdWord) (rest : List Turn),
    s.schedule = .producer :: rest → s.producerPort = w :: ws →
      (6 ≤ (opField w).toNat → step s = .refused .reservedCommand) ∧
      ((opField w).toNat ≤ 5 → (opField w).toNat ≠ 1 → step s = .refused .wrongPort)) ∧
  (∀ (s : State) (w : CmdWord) (ws : List CmdWord) (rest : List Turn),
    s.schedule = .consumer :: rest → s.feeding = false → s.consumerPort = w :: ws →
      (6 ≤ (opField w).toNat → step s = .refused .reservedCommand) ∧
      ((opField w).toNat = 1 → step s = .refused .wrongPort)) ∧
  (∀ (s : State) (c : Bool) (w : CmdWord) (ws : List CmdWord) (rest : List Turn),
    s.schedule = .hardwareReset true c :: rest → s.producerPort = w :: ws →
      (6 ≤ (opField w).toNat → step s = .refused .reservedCommand) ∧
      ((opField w).toNat ≤ 5 → (opField w).toNat ≠ 1 → step s = .refused .wrongPort)) ∧
  (∀ (s : State) (p : Bool) (w : CmdWord) (ws : List CmdWord) (rest : List Turn),
    s.schedule = .hardwareReset p true :: rest → s.feeding = false → s.consumerPort = w :: ws →
    (p = true → ∀ v ∈ s.producerPort.head?, (decodeCommand v).acceptedOn .producer = true) →
      (6 ≤ (opField w).toNat → step s = .refused .reservedCommand) ∧
      ((opField w).toNat = 1 → step s = .refused .wrongPort))

/-- R80, R81: a step runs the command that the port's word decodes to, after the turn and the word have been taken. For
`FEED` see the next two. The ports are the spec's own decision D11 (DESIGN CHOICE, assumption 21); the list of turns and the
words waiting on a port are the model's (assumptions 1 and 18). -/
def Obligations.StepRunsTheCommandOnThePort : Prop :=
  ∀ (s : State) (w : CmdWord) (ws : List CmdWord) (rest : List Turn) (i : Instr), i ≠ .feed →
    (s.schedule = .producer :: rest → s.producerPort = w :: ws → decodeCommandAt .producer w = .ok i →
      step s = exec i { s with schedule := rest, producerPort := ws }) ∧
    (s.schedule = .consumer :: rest → s.feeding = false → s.consumerPort = w :: ws →
      decodeCommandAt .consumer w = .ok i → step s = exec i { s with schedule := rest, consumerPort := ws })

/-- R80, R130: presenting `FEED` makes its first iteration; while the port is busy each turn of the consumer makes the next,
and the words waiting on the port stay there. Every such iteration is `exec .feed`, whichever way it is fetched. One
iteration a step and the busy flag are assumption 2, the two ways of fetching assumption 3 (DEDUCED); the ports are decision
D11 (assumption 21). -/
def Obligations.StepMakesOneFeedIteration : Prop :=
  ∀ (s : State) (rest : List Turn), s.schedule = .consumer :: rest →
    (s.feeding = true → step s = exec .feed { s with schedule := rest }) ∧
    (∀ w ws, s.feeding = false → s.consumerPort = w :: ws → decodeCommandAt .consumer w = .ok .feed →
      step s = exec .feed { s with schedule := rest, consumerPort := ws })

/-- R76, R122, R130: when a `FEED` is in progress, the reassembler is idle and the oldest byte of the ring decodes to a
leading byte's instruction, the step takes that byte from the ring and runs the instruction. That a row of the opcode table
is run as `STEP` of a byte already popped is the model's reading (DEDUCED, assumption 3). -/
def Obligations.StepRunsTheLeadingByte : Prop :=
  ∀ (s : State) (rest : List Turn) (b : Byte) (r : RingBuffer) (i : Instr),
    s.schedule = .consumer :: rest → s.feeding = true → s.asm.position = 0 → popByte s.ring = some (b, r) →
    decodeLead b = .ok i → step s = exec i { s with schedule := rest, ring := r }

/-! ### The ring buffer -/

/-- R100: `RING_RESET`. The slots, the assembly state and everything else stay. -/
def Obligations.RingResetEmptiesTheRing : Prop :=
  ∀ s : State, ∃ t, exec .ringReset s = .next t ∧ t.ring.head = 0 ∧ t.ring.tail = 0 ∧ ringSize t.ring = 0 ∧
    (∀ j, ringRead t.ring j = ringRead s.ring j) ∧ t = { s with ring := t.ring }

/-- R101, R152: `RING_PUSH b` stores at `head` and advances it, or, when the ring is full, changes nothing (but for the
label). Every other slot, `tail` and everything outside the ring stay. The label is R151's (decision D14, assumption 8). -/
def Obligations.RingPushAppendsOrDrops : Prop :=
  ∀ (b : Byte) (s : State),
    if (s.ring.head.toNat + 1) % 256 = s.ring.tail.toNat then
      exec (.ringPush b) s = .next { s with events := s.events ++ [.overflow b] }
    else
      ∃ t, exec (.ringPush b) s = .next t ∧ t.ring.head.toNat = (s.ring.head.toNat + 1) % 256 ∧
        t.ring.tail = s.ring.tail ∧ ringRead t.ring s.ring.head.toNat = b ∧
        (∀ j, j ≠ s.ring.head.toNat → ringRead t.ring j = ringRead s.ring j) ∧ t = { s with ring := t.ring }

/-- R102: `RING_POP`, with its result as the port carries it (R82: `valid` in bit 8). Results stand in the port format of R82
(the spec's own decision D11, assumption 21). -/
def Obligations.RingPopTakesTheOldest : Prop :=
  ∀ s : State,
    if s.ring.head = s.ring.tail then
      exec .ringPop s = .next { s with delivered := s.delivered ++ [.pop 0x000] }
    else
      ∃ t, exec .ringPop s = .next t ∧ t.ring.tail.toNat = (s.ring.tail.toNat + 1) % 256 ∧
        t.ring = { s.ring with tail := t.ring.tail } ∧
        t.delivered = s.delivered ++ [.pop (0x100 + (ringRead s.ring s.ring.tail.toNat).setWidth 9)] ∧
        t = { s with ring := t.ring, delivered := t.delivered }

/-- R103: `RING_SIZE`, a pure read; (e) in 8-bit wrap-around arithmetic it is `head - tail`. Results stand in the port format
of R82 (the spec's own decision D11, assumption 21). -/
def Obligations.RingSizeReturnsTheCount : Prop :=
  ∀ s : State,
    exec .ringSize s = .next { s with delivered := s.delivered ++
      [.size (BitVec.ofNat 8 ((s.ring.head.toNat + 256 - s.ring.tail.toNat) % 256))] } ∧
    BitVec.ofNat 8 ((s.ring.head.toNat + 256 - s.ring.tail.toNat) % 256) = s.ring.head - s.ring.tail

/-- R103 (d) (the spec's own inference): `RING_SIZE -> k` promises that the next `k` `RING_POP`s return `some`, whatever is
pushed between them. Results stand in the port format of R82 (the spec's own decision D11, assumption 21). -/
def Obligations.SizePromisesPops : Prop :=
  ∀ (ops : List Instr) (s : State), (∀ i ∈ ops, i = .ringPop ∨ ∃ b, i = .ringPush b) →
    ops.count .ringPop ≤ ringSize s.ring →
    ∃ t results, runInstrs ops s = some t ∧ t.delivered = s.delivered ++ results ∧
      results.length = ops.count .ringPop ∧ ∀ d ∈ results, ∃ b, d = popResult (some b)

/-- R104 (the spec's own inference): because `N = 256 = 2^8` each index formula is the plain 8-bit operation; R31, R32:
empty and full. -/
def Obligations.IndexArithmeticIsEightBit : Prop :=
  ∀ r : RingBuffer,
    nextIndex r.head = r.head + 1 ∧ ringSize r = (r.head - r.tail).toNat ∧
    (ringEmpty r = true ↔ r.head = r.tail) ∧ (ringFull r = true ↔ r.head + 1 = r.tail) ∧
    (ringEmpty r = true ↔ ringSize r = 0) ∧ (ringFull r = true ↔ ringSize r = 255)

/-- R107: each of the four operations of the ring always completes, in every state, in one transition. -/
def Obligations.RingOperationsNeverBlock : Prop :=
  ∀ (i : Instr) (s : State), isRingOp i = true → ∃ t, exec i s = .next t ∧ t.asm = s.asm ∧ t.feeding = s.feeding

/-- R33, R62 (its prefix law is the spec's own inference), R105: through any sequence of ring operations the ring returns,
holds and drops what a first-in first-out queue of 255 bytes does, and touches nothing else of the block. Results stand in
the port format of R82 (the spec's own decision D11, assumption 21), labels are R151's (decision D14, assumption 8). -/
def Obligations.RingRefinesTheQueue : Prop :=
  ∀ (ops : List Instr) (s : State), (∀ i ∈ ops, isRingOp i = true) →
    ∃ t, runInstrs ops s = some t ∧ t.queue = ops.foldl (fun q i => q.apply i) s.queue ∧
      ringSize t.ring = (heldBytes t.ring).length ∧ (heldBytes t.ring).length ≤ 255 ∧
      t = { s with ring := t.ring, delivered := t.delivered, events := t.events }

/-- R106: after any sequence of ring operations since the last `RING_RESET`, the size is the number of `RING_PUSH`es that
stored minus the number of `RING_POP`s that returned `some`. A push that did not store has noted its `Overflow`. Results
stand in the port format of R82 (the spec's own decision D11, assumption 21), labels are R151's (decision D14, assumption 8).
-/
def Obligations.SizeLaw : Prop :=
  ∀ (ops : List Instr) (s : State), (∀ i ∈ ops, isRingOp i = true ∧ i ≠ .ringReset) →
    ∃ t results labels, runInstrs (.ringReset :: ops) s = some t ∧
      t.delivered = s.delivered ++ results ∧ t.events = s.events ++ labels ∧
      ringSize t.ring + labels.length + results.countP (fun d => decide (∃ b : Byte, d = popResult (some b))) =
        ops.countP (fun i => decide (∃ b : Byte, i = .ringPush b)) ∧
      ringSize t.ring ≤ 255 ∧
      ∃ u, exec .ringSize t = .next u ∧ u.delivered = t.delivered ++ [.size (BitVec.ofNat 8 (ringSize t.ring))]

/-- R105: starting empty, the first 255 pushes are held and the 256th consecutive push is the first to be dropped. The label
is R151's (decision D14, assumption 8). -/
def Obligations.CapacityIs255 : Prop :=
  ∀ (bytes : List Byte) (s : State), ringSize s.ring = 0 →
    ∃ t, runInstrs (pushSeq bytes) s = some t ∧ heldBytes t.ring = bytes.take 255 ∧
      t.events = s.events ++ (bytes.drop 255).map .overflow

/-- R61 (the spec's own decision D4): unless the ring is empty or full, a `RING_PUSH` and a `RING_POP` presented at the same
instant give the same state and results in either order. Results stand in the port format of R82 (the spec's own decision
D11, assumption 21). -/
def Obligations.PushAndPopCommute : Prop :=
  ∀ (b : Byte) (s : State), ringEmpty s.ring = false → ringFull s.ring = false →
    ∃ t, runInstrs [.ringPush b, .ringPop] s = some t ∧ runInstrs [.ringPop, .ringPush b] s = some t

/-- R60 (the spec's own inference): `RING_PUSH` split in two, the byte into `ring[head]` first and `head` second. Between the
halves the ring holds, returns and counts what it did before; the second half makes it the pushed ring. The halves are no
steps of the machine (assumption 17). -/
def Obligations.PushIsInvisibleUntilHeadMoves : Prop :=
  ∀ (b : Byte) (r : RingBuffer), ringFull r = false →
    let half := ringWrite r r.head.toNat b
    heldBytes half = heldBytes r ∧ ringSize half = ringSize r ∧
    (popByte half).map Prod.fst = (popByte r).map Prod.fst ∧
    { half with head := half.head + 1 } = pushByte r b ∧ heldBytes (pushByte r b) = heldBytes r ++ [b]

/-! ### The reassembler, one iteration of `FEED` -/

/-- R121, R153 (a): idle, a byte that is not in `LEAD` is discarded and nothing but the ring's `tail` changes. The label is
R151's (decision D14, assumption 8). -/
def Obligations.NoiseIsDiscardedWhileIdle : Prop :=
  ∀ (s : State) (b : Byte) (r : RingBuffer), popByte s.ring = some (b, r) → s.asm.position = 0 → b ∉ leadBytes →
    exec .feed s = .next { s with ring := r, feeding := true, events := s.events ++ [.noise b] }

/-- R122: idle, a byte of `LEAD` starts a frame, whatever `expected_length` and `leading_byte` held before. The threshold 6
is `EXP_INIT` (R11), the spec's own decision D1 on its conflict C1 and the model's choice (DESIGN CHOICE, assumption 4). -/
def Obligations.FrameStartIsAccepted : Prop :=
  ∀ (s : State) (b : Byte) (r : RingBuffer), popByte s.ring = some (b, r) → s.asm.position = 0 → b ∈ leadBytes →
    ∃ t, exec .feed s = .next t ∧ t.asm.leadingByte = b ∧ t.asm.expectedLength = 6 ∧ t.asm.position = 1 ∧
      outRead t.asm 0 = b ∧ (∀ j, j ≠ 0 → outRead t.asm j = outRead s.asm j) ∧
      t = { s with ring := r, feeding := true, asm := t.asm }

/-- R123: the length byte of a variable-class frame, at position 5: the threshold becomes `6 + b - 1`, in naturals; the byte
itself is stored; `b = 0` completes at once with 6 bytes, any other goes on. That the sum does not wrap at 8 bits, for `b`
from 251 to 255, is the spec's own decision D2 on the width (DESIGN CHOICE, assumption 19). Results stand in the port format
of R82 (the spec's own decision D11, assumption 21). -/
def Obligations.LengthByteSetsTheThreshold : Prop :=
  ∀ (s : State) (b : Byte) (r : RingBuffer), popByte s.ring = some (b, r) → s.asm.position = 5 →
    s.asm.leadingByte ∈ varLeadBytes →
    ∃ t, exec .feed s = .next t ∧ t.ring = r ∧ t.asm.expectedLength.toNat + 1 = 6 + b.toNat ∧ outRead t.asm 5 = b ∧
      t.asm.leadingByte = s.asm.leadingByte ∧
      (b = 0 → t.asm.position = 0 ∧ t.feeding = false ∧
        t.delivered = s.delivered ++ [.feed 6 (frameBytes s.asm 5 ++ [b])]) ∧
      (b ≠ 0 → t.asm.position = 6 ∧ t.feeding = true ∧ t.delivered = s.delivered)

/-- R124: a byte that is not discarded is stored as it is, whatever its value, at index `position`, and nothing else of
`out` changes; `position` goes up by one (and, if that completes the frame, back to 0, R125). Inside a frame the leading
byte stays, and the threshold too except at the length byte. -/
def Obligations.ByteIsStored : Prop :=
  ∀ (s : State) (b : Byte) (r : RingBuffer), popByte s.ring = some (b, r) →
    (s.asm.position = 0 → b ∈ leadBytes) → s.asm.position.toNat < 65 →
    ∃ t, exec .feed s = .next t ∧ t.ring = r ∧ t.events = s.events ∧
      outRead t.asm s.asm.position.toNat = b ∧
      (∀ j, j ≠ s.asm.position.toNat → outRead t.asm j = outRead s.asm j) ∧
      (s.asm.position ≠ 0 → t.asm.leadingByte = s.asm.leadingByte ∧
        (¬ (s.asm.position = 5 ∧ s.asm.leadingByte ∈ varLeadBytes) → t.asm.expectedLength = s.asm.expectedLength)) ∧
      (t.feeding = true → t.asm.position.toNat = s.asm.position.toNat + 1 ∧ t.delivered = s.delivered) ∧
      (t.feeding = false → t.asm.position = 0)

/-- R125: after a store the completion test compares the position after the store with the threshold, strictly; the frame
that completes is `out[0 .. n)` with `n` that position, the byte just stored its last; `leading_byte` and `expected_length`
are not cleared; `n` is at least 6 and at most 65 (the threshold is never below 5, R26). The threshold 6 of a frame start is
`EXP_INIT` (R11), the spec's own decision D1 on its conflict C1 and the model's choice (DESIGN CHOICE, assumption 4). That
the threshold of a length byte does not wrap at 8 bits is decision D2 (DESIGN CHOICE, assumption 19). Results stand in the
port format of R82 (the spec's own decision D11, assumption 21); the frame is a value (decision D8, assumption 22). -/
def Obligations.CompletionIsStrict : Prop :=
  ∀ (s : State) (b : Byte) (r : RingBuffer), popByte s.ring = some (b, r) →
    (s.asm.position = 0 → b ∈ leadBytes) → s.asm.position.toNat < 65 → 5 ≤ s.asm.expectedLength.toNat →
    ∃ t, exec .feed s = .next t ∧
      t.asm.leadingByte = (if s.asm.position = 0 then b else s.asm.leadingByte) ∧
      t.asm.expectedLength =
        (if s.asm.position = 0 then 6
         else if s.asm.position = 5 ∧ s.asm.leadingByte ∈ varLeadBytes then extendedLength b
         else s.asm.expectedLength) ∧
      if t.asm.expectedLength.toNat < s.asm.position.toNat + 1 then
        t.asm.position = 0 ∧ t.feeding = false ∧
        (∃ frame, t.delivered = s.delivered ++ [.feed (s.asm.position + 1) frame] ∧
          frame = frameBytes s.asm s.asm.position.toNat ++ [b] ∧ 6 ≤ frame.length ∧ frame.length ≤ 65) ∧
        ∀ k < s.asm.position.toNat + 1, outRead t.asm k = if k = s.asm.position.toNat then b else outRead s.asm k
      else t.asm.position = s.asm.position + 1 ∧ t.feeding = true ∧ t.delivered = s.delivered

/-- R126, R153 (b): at `position == 65` the byte is discarded unexamined and the assembly returns to idle. That "cleared" is
0x00 is the spec's own decision D5 (DESIGN CHOICE, assumption 7). -/
def Obligations.OverlongFrameIsAbandoned : Prop :=
  ∀ (s : State) (b : Byte) (r : RingBuffer), popByte s.ring = some (b, r) → s.asm.position.toNat = 65 →
    exec .feed s = .next { s with
      ring := r, feeding := true, asm := { s.asm with position := 0, leadingByte := 0x00 },
      events := s.events ++ [.oversize b] }

/-- R154: a `FEED` that finds the ring empty returns `none` (`len = 0`, R82) and keeps the assembly state. The label is
R151's (decision D14, assumption 8), the result's format decision D11 (assumption 21). -/
def Obligations.StarvedFeedReturnsNone : Prop :=
  ∀ s : State, s.ring.head = s.ring.tail →
    exec .feed s = .next { s with
      feeding := false, delivered := s.delivered ++ [.feed 0 []], events := s.events ++ [.starved] }

/-- R131 (what it writes is the spec's own decision D13; DESIGN CHOICE, assumptions 4, 7 and 16): `ASM_RESET`; `out` and the
ring are not touched. -/
def Obligations.AsmResetAbandonsTheFrame : Prop :=
  ∀ s : State, exec .asmReset s = .next { s with
    asm := { s.asm with position := 0, leadingByte := 0x00, expectedLength := 6 } }

/-- R122, R76: the nine leading bytes `lead62`, `lead60`, `lead67`, `lead75`, `lead71`, `lead64`, `lead68`, `lead7B`,
`lead7C`, each at `position == 0`: the frame start is accepted and stored. The threshold 6 is `EXP_INIT` (R11), the spec's own
decision D1 on its conflict C1 and the model's choice (DESIGN CHOICE, assumption 4); that a row of the opcode table is run so
is the model's reading (assumption 3). -/
def Obligations.LeadingBytesStartFrames : Prop :=
  ∀ (i : Instr) (b : Byte) (s : State), encode i = .frameByte b → s.asm.position = 0 →
    ∃ t, exec i s = .next t ∧ t.asm.leadingByte = b ∧ t.asm.expectedLength = 6 ∧ t.asm.position = 1 ∧
      outRead t.asm 0 = b ∧ (∀ j, j ≠ 0 → outRead t.asm j = outRead s.asm j) ∧
      t = { s with feeding := true, asm := t.asm }

/-- R77: the same nine byte values inside a frame are data: "a value of `LEAD`, or any other, is stored as data, because
the leading-byte test is made only at `position == 0`"; R126 (a): at `position == 65` they start no frame. That "cleared"
is 0x00 there is the spec's own decision D5 (DESIGN CHOICE, assumption 7); that a row of the opcode table is run so is the
model's reading (assumption 3). -/
def Obligations.LeadingBytesInsideAFrameAreData : Prop :=
  ∀ (i : Instr) (b : Byte) (s : State), encode i = .frameByte b → 0 < s.asm.position.toNat →
    (s.asm.position.toNat < 65 → ∃ t, exec i s = .next t ∧ t.asm.leadingByte = s.asm.leadingByte ∧
      outRead t.asm s.asm.position.toNat = b ∧ t.events = s.events ∧ t.ring = s.ring) ∧
    (s.asm.position.toNat = 65 → exec i s = .next { s with
      feeding := true, asm := { s.asm with position := 0, leadingByte := 0x00 },
      events := s.events ++ [.oversize b] })

/-- R127 (the spec's own inference), its nine rows in order, in every assembly state that meets the invariant of R39. It rests
on the DESIGN CHOICEs of assumptions 4 (`e = 6`, conflict C1, decision D1), 7 (`L = 0x00`, decision D5) and 19 (`e = 5 + b`
does not wrap, decision D2). -/
def Obligations.TransitionTable : Prop :=
  ∀ (a : Assembly) (b : Byte), a.Inv →
    let p := a.position.toNat
    let e := a.expectedLength.toNat
    let a' := (stepByte a b).asm
    let put := { a with out := Memory.store a.out p b }
    (p = 0 → b ∉ leadBytes → stepByte a b = ⟨a, none, some (.noise b)⟩) ∧
    (p = 0 → b ∈ leadBytes →
      stepByte a b = ⟨{ put with leadingByte := b, expectedLength := 6, position := 1 }, none, none⟩) ∧
    (1 ≤ p → p ≤ 4 → stepByte a b = ⟨{ put with position := a.position + 1 }, none, none⟩) ∧
    (p = 5 → a.leadingByte ∈ fixLeadBytes → stepByte a b = ⟨{ put with position := 6 }, none, none⟩) ∧
    (p = 5 → a.leadingByte ∈ varLeadBytes → b = 0 →
      stepByte a b = ⟨{ put with position := 0, expectedLength := 5 }, some (frameBytes a 5 ++ [b]), none⟩) ∧
    (p = 5 → a.leadingByte ∈ varLeadBytes → b ≠ 0 →
      a'.expectedLength.toNat = 5 + b.toNat ∧
      stepByte a b = ⟨{ put with position := 6, expectedLength := a'.expectedLength }, none, none⟩) ∧
    (6 ≤ p → p ≤ 64 → p + 1 ≤ e → stepByte a b = ⟨{ put with position := a.position + 1 }, none, none⟩) ∧
    (6 ≤ p → p ≤ 64 → e < p + 1 → p = e ∧
      stepByte a b = ⟨{ put with position := 0 }, some (frameBytes a p ++ [b]), none⟩) ∧
    (p = 65 → stepByte a b = ⟨{ a with position := 0, leadingByte := 0x00 }, none, some (.oversize b)⟩)

/-! ### The reassembler on a stream -/

/-- R132, and R62 (its prefix law is the spec's own inference): through any sequence of pushes and `FEED` iterations, however
interleaved, the frames delivered and the assembly state depend only on the bytes popped, one after the other; and the bytes
popped, followed by those still held, are the bytes held at the start followed by the bytes stored, in order. Results stand
in the port format of R82 (the spec's own decision D11, assumption 21); one iteration a step is assumption 2. -/
def Obligations.IncrementalDeliveryIsTransparent : Prop :=
  ∀ (ops : List Instr) (s : State), (∀ i ∈ ops, i = .feed ∨ ∃ b, i = .ringPush b) →
    ∃ t popped stored results, runInstrs ops s = some t ∧
      popped ++ heldBytes t.ring = heldBytes s.ring ++ stored ∧
      stored.Sublist (ops.filterMap fun i => match i with | .ringPush b => some b | _ => none) ∧
      t.asm = (absorb s.asm popped).asm ∧ t.delivered = s.delivered ++ results ∧
      results.filterMap deliveredFrame = (absorb s.asm popped).frames

/-- R132 (with R134, the spec's own inference): a stream cut into any pieces of at most 255 bytes, each pushed and drained
before the next (`DRAIN` is the spec's own decision D12), gives the frames and the assembly state of the whole stream; those
of one push and one `DRAIN` of it where it fits into the ring. In particular a variable-class frame in any pieces, one byte
at a time or more, is returned whole and alone. -/
def Obligations.SplitStreamsJoin : Prop :=
  ∀ (pieces : List (List Byte)) (s : State), ringSize s.ring = 0 → (∀ piece ∈ pieces, piece.length ≤ 255) →
    ∃ frames t, feedPieces pieces s = some (frames, t) ∧ heldBytes t.ring = [] ∧
      frames = (absorb s.asm pieces.flatten).frames ∧ t.asm = (absorb s.asm pieces.flatten).asm ∧
      (pieces.flatten.length ≤ 255 → ∃ u, runInstrs (pushSeq pieces.flatten) s = some u ∧
        (drain u).1 = frames ∧ (drain u).2.asm = t.asm) ∧
      (∀ (b0 b1 b2 b3 b4 n : Byte) (params : List Byte), s.asm.position = 0 → b0 ∈ varLeadBytes → n.toNat ≤ 59 →
        params.length = n.toNat → pieces.flatten = [b0, b1, b2, b3, b4, n] ++ params → frames = [pieces.flatten])

/-- R121 (b), R136: a run of bytes that are not in `LEAD`, of any length, is discarded while idle and changes nothing. -/
def Obligations.NoiseRunsAreDiscarded : Prop :=
  ∀ (a : Assembly) (bytes : List Byte), a.position = 0 → (∀ b ∈ bytes, b ∉ leadBytes) →
    absorb a bytes = { asm := a, frames := [], labels := bytes.map .noise }

/-- R133 (the spec's own inference; rests on `EXP_INIT = 6`, conflict C1, assumption 4): a fixed-class frame completes on
the seventh byte, whatever it is, with 7 bytes; the first six give nothing and leave `position = 6`. -/
def Obligations.FixedFrameTakesSevenBytes : Prop :=
  ∀ (a : Assembly) (b0 b1 b2 b3 b4 b5 b6 : Byte), a.position = 0 → b0 ∈ fixLeadBytes →
    (absorb a [b0, b1, b2, b3, b4, b5]).frames = [] ∧ (absorb a [b0, b1, b2, b3, b4, b5]).asm.position = 6 ∧
    (absorb a [b0, b1, b2, b3, b4, b5, b6]).frames = [[b0, b1, b2, b3, b4, b5, b6]] ∧
    (absorb a [b0, b1, b2, b3, b4, b5, b6]).labels = [] ∧
    (absorb a [b0, b1, b2, b3, b4, b5, b6]).asm.position = 0

/-- R134, R72 (R134 is the spec's own inference): a variable-class frame with length byte `n <= 59` completes exactly at
its wire length `6 + n`, on its last byte and not before. -/
def Obligations.VariableFrameTakesItsWireLength : Prop :=
  ∀ (a : Assembly) (b0 b1 b2 b3 b4 n : Byte) (params : List Byte), a.position = 0 → b0 ∈ varLeadBytes →
    n.toNat ≤ 59 → params.length = n.toNat →
    let wire := [b0, b1, b2, b3, b4, n] ++ params
    (absorb a wire).frames = [wire] ∧ wire.length = 6 + n.toNat ∧ (absorb a wire).labels = [] ∧
    (absorb a wire).asm.position = 0 ∧ ∀ k < wire.length, (absorb a (wire.take k)).frames = []

/-- R135, R183 (the spec's own inferences; for a length byte from 251 to 255 they rest on the width of `expected_length`,
decision D2, DESIGN CHOICE, assumption 19): with a length byte `n >= 60` the frame never completes; 65 bytes are stored
and the 66th, whatever it is, is discarded and leaves the reassembler idle. -/
def Obligations.OverlongFrameCostsSixtySixBytes : Prop :=
  ∀ (a : Assembly) (b0 b1 b2 b3 b4 n x : Byte) (rest : List Byte), a.position = 0 → b0 ∈ varLeadBytes →
    60 ≤ n.toNat → rest.length = 59 →
    let wire := [b0, b1, b2, b3, b4, n] ++ rest
    (absorb a wire).frames = [] ∧ (absorb a wire).labels = [] ∧ (absorb a wire).asm.position = 65 ∧
    (absorb a (wire ++ [x])).frames = [] ∧ (absorb a (wire ++ [x])).labels = [.oversize x] ∧
    (absorb a (wire ++ [x])).asm.position = 0

/-- R176 (b) (the spec's own inference; rests on `EXP_INIT = 6`, assumption 4): of two fixed-class frames that follow each
other directly, the first takes the second's leading byte and the rest of the second is noise. -/
def Obligations.AdjacentFixedFramesLoseTheSecond : Prop :=
  ∀ (a : Assembly) (b0 b1 b2 b3 b4 b5 c0 c1 c2 c3 c4 c5 : Byte), a.position = 0 → b0 ∈ fixLeadBytes →
    (∀ c ∈ [c1, c2, c3, c4, c5], c ∉ leadBytes) →
    (absorb a [b0, b1, b2, b3, b4, b5, c0, c1, c2, c3, c4, c5]).frames = [[b0, b1, b2, b3, b4, b5, c0]] ∧
    (absorb a [b0, b1, b2, b3, b4, b5, c0, c1, c2, c3, c4, c5]).labels = [c1, c2, c3, c4, c5].map .noise

/-- R139 (the spec's own inference), counted: every byte popped is in a returned frame, discarded as noise, one of the 66 an
over-long frame costs, or in the frame still in progress. The labels counted are R151's (decision D14, assumption 8). -/
def Obligations.EveryByteIsAccountedFor : Prop :=
  ∀ (a : Assembly) (bytes : List Byte), a.position.toNat ≤ 65 →
    a.position.toNat + bytes.length =
      ((absorb a bytes).frames.map List.length).sum +
      (absorb a bytes).labels.countP (fun e => decide (∃ b : Byte, e = .noise b)) +
      66 * (absorb a bytes).labels.countP (fun e => decide (∃ b : Byte, e = .oversize b)) +
      (absorb a bytes).asm.position.toNat

/-- R137, R130: a `FEED` with no push inside it takes a number of bytes off the front of the ring and returns one result: the
one frame those bytes complete, at once on the byte that completes it, the rest staying in the ring; or `none`, and then the
ring is empty. Results stand in the port format of R82 (the spec's own decision D11, assumption 21); a whole `FEED` is its
iterations one after the other (assumption 2). -/
def Obligations.OneFramePerFeed : Prop :=
  ∀ s : State, ∃ k ≤ ringSize s.ring, ∃ d,
    (feedWhole s).delivered = s.delivered ++ [d] ∧ (feedWhole s).feeding = false ∧
    heldBytes (feedWhole s).ring = (heldBytes s.ring).drop k ∧
    (feedWhole s).asm = (absorb s.asm ((heldBytes s.ring).take k)).asm ∧
    (absorb s.asm ((heldBytes s.ring).take k)).frames = (deliveredFrame d).toList ∧
    (deliveredFrame d = none → d = .feed 0 [] ∧ k = ringSize s.ring) ∧
    (deliveredFrame d ≠ none → 0 < k ∧ (absorb s.asm ((heldBytes s.ring).take (k - 1))).frames = [])

/-- R138, R130 (f) (the spec's own inference): a `FEED` during which the producer makes no transition ends within `size + 1`
turns of the consumer, with exactly one result. The premise on the turns is the fairness that R187 asks a claim to state. The
turns are the model's list (assumption 1), one iteration a step (assumption 2). -/
def Obligations.FeedEndsWhenTheProducerIsQuiet : Prop :=
  ∀ (s : State) (rest : List Turn), s.feeding = true →
    s.schedule = List.replicate (ringSize s.ring + 1) .consumer ++ rest →
    ∃ k ≤ ringSize s.ring + 1, ∃ (t : State) (d : Delivery), 0 < k ∧ Host.Core.run core k s = .next t ∧ t.feeding = false ∧
      t.delivered = s.delivered ++ [d]

/-- R86, R182 (`DRAIN` is the spec's own decision D12): repeating `FEED` until it returns `none` returns every frame of the
bytes held, in order, and leaves the ring empty. -/
def Obligations.DrainReturnsEveryFrame : Prop :=
  ∀ s : State,
    (drain s).1 = (absorb s.asm (heldBytes s.ring)).frames ∧ heldBytes (drain s).2.ring = [] ∧
    (drain s).2.asm = (absorb s.asm (heldBytes s.ring)).asm

/-! ### Invariants and whole-machine rules -/

/-- The invariant of R39 (the spec's own inference) holds after reset. It names the values of assumptions 4 and 7 (DESIGN
CHOICE: `EXP_INIT = 6`, 0x00). -/
def Obligations.ResetMeetsTheInvariant : Prop := State.reset.Inv

/-- R38, R39 (R39 is the spec's own inference): the invariant holds between any two transitions. Its clauses on the threshold
and on `leading_byte` rest on the DESIGN CHOICEs of assumptions 4 (`EXP_INIT = 6`), 7 (0x00) and 19 (no wrap at 8 bits). -/
def Obligations.StepKeepsTheInvariant : Prop :=
  ∀ s t : State, s.Inv → step s = .next t → t.Inv

/-- R50, R51, R52: in every state, reached or not, a step keeps both arrays in canonical form and inside their address
spaces. The canonical form and the unwritten slots are assumption 5 (DESIGN CHOICE), positions above 65 assumption 15
(DEDUCED). -/
def Obligations.StepKeepsTheArrays : Prop :=
  ∀ s t : State, s.SlotsOk → step s = .next t → t.SlotsOk

/-- R150: "No operation can fail: each returns its normal result in every state." A run in which the agents keep to the words
their ports accept never stops. The ports and what they accept are the spec's own decision D11 (assumption 21); turns and
waiting words are the model's (assumptions 1 and 18), and so is what a hardware reset does with a word presented (assumption
14). -/
def Obligations.RunsWithinRightsNeverStop : Prop :=
  ∀ (k : Nat) (s : State), s.PortsLegal → ∃ t : State, Host.Core.run core k s = .next t ∧ t.PortsLegal

/-- R160: a turn of the producer touches only `ring[head]`, `head` and its own port; the assembly state, `tail`, the results
and the consumer's port stay. The ports are the spec's own decision D11 (assumption 21); turns and waiting words are the
model's (assumptions 1 and 18). -/
def Obligations.ProducerTouchesOnlyTheRing : Prop :=
  ∀ (s t : State) (rest : List Turn), s.schedule = .producer :: rest → step s = .next t →
    t.asm = s.asm ∧ t.ring.tail = s.ring.tail ∧ t.delivered = s.delivered ∧ t.feeding = s.feeding ∧
    t.consumerPort = s.consumerPort ∧ t.schedule = rest ∧
    ∀ j, j ≠ s.ring.head.toNat → ringRead t.ring j = ringRead s.ring j

/-- R20's table of writers, R24 (the spec's own inference): which instruction writes which element of the state. R20's table
has no row for the results; which operations return one is R82, the spec's own decision D11 (DESIGN CHOICE, assumption 21),
and that they are kept in a list is assumption 8. That `asmReset` writes neither `out` nor the ring is decision D13 on
conflict C4 (DESIGN CHOICE, assumption 16). The table names no leading byte. That a row of the opcode table is run as `STEP`
of a byte already popped is the model's reading (DEDUCED, assumption 3). -/
def Obligations.WritersOfEachElement : Prop :=
  ∀ (i : Instr) (s t : State), exec i s = .next t →
    (t.ring.head ≠ s.ring.head → i = .ringReset ∨ ∃ b, i = .ringPush b) ∧
    (t.ring.tail ≠ s.ring.tail → i = .ringReset ∨ i = .ringPop ∨ i = .feed) ∧
    (t.ring.slots ≠ s.ring.slots → ∃ b, i = .ringPush b) ∧
    (t.asm.out ≠ s.asm.out → i = .feed ∨ ∃ b, encode i = .frameByte b) ∧
    (t.asm ≠ s.asm → i = .feed ∨ i = .asmReset ∨ ∃ b, encode i = .frameByte b) ∧
    (t.delivered ≠ s.delivered → i = .ringPop ∨ i = .ringSize ∨ i = .feed ∨ ∃ b, encode i = .frameByte b)

/-- R21, R28, R55: the frame of the operations that store nothing, `ringReset`, `ringPop`, `ringSize`, `asmReset`: every byte
of both arrays reads as before, and the ports, the turns and the labels stay. That `asmReset` leaves `out` and the whole ring
as they were is the spec's own decision D13 on its conflict C4 (DESIGN CHOICE, assumption 16); that `ringReset`, `ringPop`
and `ringSize` do is R100, R102 and R103. -/
def Obligations.NonStoringOperationsFrame : Prop :=
  ∀ (i : Instr) (s : State), i = .ringReset ∨ i = .ringPop ∨ i = .ringSize ∨ i = .asmReset →
    ∃ t, exec i s = .next t ∧ (∀ j, ringRead t.ring j = ringRead s.ring j) ∧
      (∀ j, outRead t.asm j = outRead s.asm j) ∧ t.feeding = s.feeding ∧ t.producerPort = s.producerPort ∧
      t.consumerPort = s.consumerPort ∧ t.schedule = s.schedule ∧ t.events = s.events ∧
      (i ≠ .ringReset → t.ring.head = s.ring.head) ∧ (i = .ringSize ∨ i = .asmReset → t.ring = s.ring) ∧
      (i ≠ .asmReset → t.asm = s.asm) ∧ (i = .ringReset ∨ i = .asmReset → t.delivered = s.delivered)

/-- The frame of `feed`, R51, R52, R55, R130: every byte of the ring reads as before, `head` stays, every byte of `out` but
the one at `position` reads as before, and that one too unless the byte is stored; the ports and the turns stay. And the
frame of the nine leading bytes, of which those rules do not speak: the same, and the whole ring stays, `tail` included,
since the model runs a row as `STEP` of a byte that the fetch has popped already (DEDUCED, assumption 3). That a position
above 65, which no run reaches, stores nothing is the model's reading of the else clause of R120 (DEDUCED, assumption 15). -/
def Obligations.ReassemblerFrame : Prop :=
  ∀ (i : Instr) (s : State), i = .feed ∨ (∃ b, encode i = .frameByte b) →
    ∃ t, exec i s = .next t ∧ (∀ j, ringRead t.ring j = ringRead s.ring j) ∧ t.ring.head = s.ring.head ∧
      (i ≠ .feed → t.ring = s.ring) ∧ (∀ j, j ≠ s.asm.position.toNat → outRead t.asm j = outRead s.asm j) ∧
      (65 ≤ s.asm.position.toNat → ∀ j, outRead t.asm j = outRead s.asm j) ∧
      (t.events ≠ s.events → ∀ j, outRead t.asm j = outRead s.asm j) ∧
      t.producerPort = s.producerPort ∧ t.consumerPort = s.consumerPort ∧ t.schedule = s.schedule

/-- R52, R184 (the spec's own decision D8): a result is handed over as a value; no later step changes or takes back one that
the consumer has. DESIGN CHOICE, assumption 22; that results are kept in a list is assumption 8. -/
def Obligations.DeliveredResultsStand : Prop :=
  ∀ s t : State, step s = .next t → ∃ more, t.delivered = s.delivered ++ more ∧ more.length ≤ 1

/-- R151 (the spec's own decision D14): "no agent can observe it and no rule reads it": two states that differ only in the
labels noted so far go on to states that differ only in the labels. DESIGN CHOICE, assumption 8. -/
def Obligations.LabelsAreUnobservable : Prop :=
  ∀ (s : State) (labels : List Event) (t : State), step s = .next t →
    ∃ u, step { s with events := labels } = .next u ∧ u = { t with events := u.events }

/-- R43, R126 (d), R131 (a): `expected_length` and `leading_byte` cannot be observed while idle, so neither can the values
the spec gives them after reset: two idle states that differ only in the two go on to states that are equal, or that are idle
again and differ only in the two. The values are the spec's own decisions D7 and D13 (DESIGN CHOICE, assumptions 7 and 16).
-/
def Obligations.StaleThresholdAndOpcodeAreUnobservable : Prop :=
  ∀ (s : State) (e : BitVec 9) (l : Byte) (t : State), s.asm.position = 0 → step s = .next t →
    ∃ u, step { s with asm := { s.asm with expectedLength := e, leadingByte := l } } = .next u ∧
      (u = t ∨ (t.asm.position = 0 ∧
        u = { t with asm := { t.asm with expectedLength := u.asm.expectedLength, leadingByte := u.asm.leadingByte } }))

/-- R39 (f), R41, R44 (the spec's own inference): "no operation ever reads a slot that holds its reset value": what the
unwritten slots hold makes no difference to any step of a block that meets the invariant. The free contents are assumptions 5
and 6 (DESIGN CHOICE). -/
def Obligations.UnwrittenSlotsAreNeverRead : Prop :=
  ∀ (s : State) (f g : Nat) (t : State), s.Inv → step s = .next t →
    ∃ u, step { s with ring := { s.ring with fill := f }, asm := { s.asm with fill := g } } = .next u ∧
      u = { t with ring := { t.ring with fill := u.ring.fill }, asm := { t.asm with fill := u.asm.fill } }
end

