-- ==== Sys2Proof/Laws/State.lean ====
section
/-! SUPPORT. Each named update of the state, field by field. -/

namespace Sys2Proof.Machine

@[simp] theorem note_ring (e : Event) (s : State) : (note e s).ring = s.ring := rfl
@[simp] theorem note_asm (e : Event) (s : State) : (note e s).asm = s.asm := rfl
@[simp] theorem note_feeding (e : Event) (s : State) : (note e s).feeding = s.feeding := rfl
@[simp] theorem note_producerPort (e : Event) (s : State) : (note e s).producerPort = s.producerPort := rfl
@[simp] theorem note_consumerPort (e : Event) (s : State) : (note e s).consumerPort = s.consumerPort := rfl
@[simp] theorem note_schedule (e : Event) (s : State) : (note e s).schedule = s.schedule := rfl
@[simp] theorem note_delivered (e : Event) (s : State) : (note e s).delivered = s.delivered := rfl
@[simp] theorem note_events (e : Event) (s : State) : (note e s).events = s.events ++ [e] := rfl

@[simp] theorem noteAll_ring (e : Option Event) (s : State) : (noteAll e s).ring = s.ring := by cases e <;> rfl
@[simp] theorem noteAll_asm (e : Option Event) (s : State) : (noteAll e s).asm = s.asm := by cases e <;> rfl
@[simp] theorem noteAll_feeding (e : Option Event) (s : State) : (noteAll e s).feeding = s.feeding := by cases e <;> rfl
@[simp] theorem noteAll_producerPort (e : Option Event) (s : State) : (noteAll e s).producerPort = s.producerPort := by cases e <;> rfl
@[simp] theorem noteAll_consumerPort (e : Option Event) (s : State) : (noteAll e s).consumerPort = s.consumerPort := by cases e <;> rfl
@[simp] theorem noteAll_schedule (e : Option Event) (s : State) : (noteAll e s).schedule = s.schedule := by cases e <;> rfl
@[simp] theorem noteAll_delivered (e : Option Event) (s : State) : (noteAll e s).delivered = s.delivered := by cases e <;> rfl
@[simp] theorem noteAll_events (e : Option Event) (s : State) : (noteAll e s).events = s.events ++ e.toList := by
  cases e <;> simp [noteAll, note]

@[simp] theorem deliver_ring (d : Delivery) (s : State) : (deliver d s).ring = s.ring := rfl
@[simp] theorem deliver_asm (d : Delivery) (s : State) : (deliver d s).asm = s.asm := rfl
@[simp] theorem deliver_feeding (d : Delivery) (s : State) : (deliver d s).feeding = s.feeding := rfl
@[simp] theorem deliver_producerPort (d : Delivery) (s : State) : (deliver d s).producerPort = s.producerPort := rfl
@[simp] theorem deliver_consumerPort (d : Delivery) (s : State) : (deliver d s).consumerPort = s.consumerPort := rfl
@[simp] theorem deliver_schedule (d : Delivery) (s : State) : (deliver d s).schedule = s.schedule := rfl
@[simp] theorem deliver_delivered (d : Delivery) (s : State) : (deliver d s).delivered = s.delivered ++ [d] := rfl
@[simp] theorem deliver_events (d : Delivery) (s : State) : (deliver d s).events = s.events := rfl

@[simp] theorem clearRing_slots (r : RingBuffer) : (clearRing r).slots = r.slots := rfl
@[simp] theorem clearRing_fill (r : RingBuffer) : (clearRing r).fill = r.fill := rfl
@[simp] theorem clearRing_head (r : RingBuffer) : (clearRing r).head = 0 := rfl
@[simp] theorem clearRing_tail (r : RingBuffer) : (clearRing r).tail = 0 := rfl
@[simp] theorem forgetSlots_slots (r : RingBuffer) : (forgetSlots r).slots = [] := rfl
@[simp] theorem forgetSlots_fill (r : RingBuffer) : (forgetSlots r).fill = r.fill + 1 := rfl
@[simp] theorem forgetSlots_head (r : RingBuffer) : (forgetSlots r).head = r.head := rfl
@[simp] theorem forgetSlots_tail (r : RingBuffer) : (forgetSlots r).tail = r.tail := rfl

@[simp] theorem clearAssembly_out (a : Assembly) : (clearAssembly a).out = a.out := rfl
@[simp] theorem clearAssembly_fill (a : Assembly) : (clearAssembly a).fill = a.fill := rfl
@[simp] theorem clearAssembly_position (a : Assembly) : (clearAssembly a).position = 0 := rfl
@[simp] theorem clearAssembly_expectedLength (a : Assembly) : (clearAssembly a).expectedLength = expInit := rfl
@[simp] theorem clearAssembly_leadingByte (a : Assembly) : (clearAssembly a).leadingByte = 0x00 := rfl
@[simp] theorem forgetOut_out (a : Assembly) : (forgetOut a).out = [] := rfl
@[simp] theorem forgetOut_fill (a : Assembly) : (forgetOut a).fill = a.fill + 1 := rfl
@[simp] theorem forgetOut_position (a : Assembly) : (forgetOut a).position = a.position := rfl
@[simp] theorem forgetOut_expectedLength (a : Assembly) : (forgetOut a).expectedLength = a.expectedLength := rfl
@[simp] theorem forgetOut_leadingByte (a : Assembly) : (forgetOut a).leadingByte = a.leadingByte := rfl

@[simp] theorem ringWrite_fill (r : RingBuffer) (i : Nat) (b : Byte) : (ringWrite r i b).fill = r.fill := rfl
@[simp] theorem ringWrite_head (r : RingBuffer) (i : Nat) (b : Byte) : (ringWrite r i b).head = r.head := rfl
@[simp] theorem ringWrite_tail (r : RingBuffer) (i : Nat) (b : Byte) : (ringWrite r i b).tail = r.tail := rfl
@[simp] theorem ringWrite_slots (r : RingBuffer) (i : Nat) (b : Byte) :
    (ringWrite r i b).slots = Memory.store r.slots i b := rfl
@[simp] theorem outWrite_fill (a : Assembly) (i : Nat) (b : Byte) : (outWrite a i b).fill = a.fill := rfl
@[simp] theorem outWrite_position (a : Assembly) (i : Nat) (b : Byte) : (outWrite a i b).position = a.position := rfl
@[simp] theorem outWrite_expectedLength (a : Assembly) (i : Nat) (b : Byte) : (outWrite a i b).expectedLength = a.expectedLength := rfl
@[simp] theorem outWrite_leadingByte (a : Assembly) (i : Nat) (b : Byte) : (outWrite a i b).leadingByte = a.leadingByte := rfl
@[simp] theorem outWrite_out (a : Assembly) (i : Nat) (b : Byte) :
    (outWrite a i b).out = Memory.store a.out i b := rfl

@[simp] theorem pushByte_slots (r : RingBuffer) (b : Byte) : (pushByte r b).slots = Memory.store r.slots r.head.toNat b := rfl
@[simp] theorem pushByte_fill (r : RingBuffer) (b : Byte) : (pushByte r b).fill = r.fill := rfl
@[simp] theorem pushByte_head (r : RingBuffer) (b : Byte) : (pushByte r b).head = nextIndex r.head := rfl
@[simp] theorem pushByte_tail (r : RingBuffer) (b : Byte) : (pushByte r b).tail = r.tail := rfl

end Sys2Proof.Machine
end

