-- ==== Sys2Proof/Laws/Memory.lean ====
section
/-! SUPPORT. The byte arrays: what a read gives after a write, and that every write keeps the canonical form. -/

namespace Sys2Proof.Machine

theorem Memory.lookup_store_same (m : Memory) (a : Nat) (v : Byte) :
    Memory.lookup (Memory.store m a v) a = some v := by
  induction m with
  | nil => simp [Memory.store, Memory.lookup]
  | cons c m ih =>
    simp only [Memory.store]
    split
    · simp [Memory.lookup]
    · split
      · simp [Memory.lookup]
      · rename_i h; simp [Memory.lookup, ih, Ne.symm h]

theorem Memory.lookup_store_other (m : Memory) {a x : Nat} (v : Byte) (h : x ≠ a) :
    Memory.lookup (Memory.store m a v) x = Memory.lookup m x := by
  induction m with
  | nil => simp [Memory.store, Memory.lookup, h.symm]
  | cons c m ih =>
    simp only [Memory.store]
    split
    · simp [Memory.lookup, h.symm]
    · split
      · rename_i hc; simp [Memory.lookup, h.symm, ← hc]
      · simp [Memory.lookup, ih]

/-- Addresses listed after a write: the written one and those listed before. -/
theorem Memory.mem_store {m : Memory} {a : Nat} {v : Byte} {c : Host.Cell} (h : c ∈ Memory.store m a v) :
    c = (a, v) ∨ c ∈ m := by
  induction m with
  | nil => simpa [Memory.store] using h
  | cons d m ih =>
    simp only [Memory.store] at h
    split at h
    · simpa using h
    · split at h
      · rcases List.mem_cons.mp h with h | h <;> simp [h]
      · rcases List.mem_cons.mp h with h | h
        · simp [h]
        · rcases ih h with h | h <;> simp [h]

theorem Memory.store_within {m : Memory} {n a : Nat} (v : Byte) (hm : Memory.within n m) (ha : a < n) :
    Memory.within n (Memory.store m a v) := fun c hc => by
  rcases Memory.mem_store hc with rfl | hc
  · exact ha
  · exact hm c hc

theorem Memory.store_wf {m : Memory} (a : Nat) (v : Byte) (hm : Memory.wf m) : Memory.wf (Memory.store m a v) := by
  induction m with
  | nil => simp [Memory.store, Memory.wf]
  | cons c m ih =>
    obtain ⟨hc, hm⟩ := List.pairwise_cons.mp hm
    simp only [Memory.store]
    split
    · rename_i h
      refine List.pairwise_cons.mpr ⟨fun d hd => ?_, List.pairwise_cons.mpr ⟨hc, hm⟩⟩
      rcases List.mem_cons.mp hd with rfl | hd
      · exact h
      · exact Nat.lt_trans h (hc d hd)
    · split
      · rename_i h
        exact List.pairwise_cons.mpr ⟨fun d hd => h ▸ hc d hd, hm⟩
      · refine List.pairwise_cons.mpr ⟨fun d hd => ?_, ih hm⟩
        rcases Memory.mem_store hd with rfl | hd
        · show c.1 < a
          omega
        · exact hc d hd

/-- Both arrays are in canonical form after reset. -/
theorem reset_arrays_rising : Memory.wf State.reset.ring.slots ∧ Memory.wf State.reset.asm.out := by decide

theorem Memory.lookup_store (m : Memory) (a x : Nat) (v : Byte) :
    Memory.lookup (Memory.store m a v) x = if x = a then some v else Memory.lookup m x := by
  split
  · rename_i h; rw [h, Memory.lookup_store_same]
  · rename_i h; exact Memory.lookup_store_other m v h

@[simp] theorem ringRead_write (r : RingBuffer) (i j : Nat) (b : Byte) :
    ringRead (ringWrite r i b) j = if j = i then b else ringRead r j := by
  unfold ringRead
  rw [ringWrite_slots, Memory.lookup_store]
  split <;> rfl

@[simp] theorem outRead_write (a : Assembly) (i j : Nat) (b : Byte) :
    outRead (outWrite a i b) j = if j = i then b else outRead a j := by
  unfold outRead
  rw [outWrite_out, Memory.lookup_store]
  split <;> rfl

end Sys2Proof.Machine
end

