-- ==== Sys2Proof/Laws/ByteStep.lean ====
section
/-! SUPPORT. What one `STEP` can do: exactly one of four things (R120), clause by clause (R121 to R126). -/

namespace Sys2Proof.Machine

theorem zero_not_lead : (0x00 : Byte) ∉ leadBytes := by decide

theorem mem_leadBytes_of_mem_varLeadBytes {b : Byte} (h : b ∈ varLeadBytes) : b ∈ leadBytes := by
  revert h; revert b; decide

theorem mem_fixLeadBytes_iff {b : Byte} : b ∈ fixLeadBytes ↔ b ∈ leadBytes ∧ b ∉ varLeadBytes := by
  revert b; decide

theorem extendedLength_toNat (b : Byte) : (extendedLength b).toNat = 5 + b.toNat := by
  revert b; decide

/-- The assembly state that a byte is stored into, and its store (R122, R123, R124). -/
def stored (a : Assembly) (b : Byte) : Assembly := storeClause (tapClause (startClause a b) b) b

/-- R121 -/
theorem stepByte_noise {a : Assembly} {b : Byte} (h0 : a.position = 0) (hb : b ∉ leadBytes) :
    stepByte a b = { asm := a, frame := none, label := some (.noise b) } := by
  simp [stepByte, h0, hb]

@[simp] theorem startClause_position (a : Assembly) (b : Byte) : (startClause a b).position = a.position := by
  unfold startClause; split <;> rfl

@[simp] theorem startClause_out (a : Assembly) (b : Byte) : (startClause a b).out = a.out := by
  unfold startClause; split <;> rfl

@[simp] theorem startClause_fill (a : Assembly) (b : Byte) : (startClause a b).fill = a.fill := by
  unfold startClause; split <;> rfl

@[simp] theorem tapClause_position (a : Assembly) (b : Byte) : (tapClause a b).position = a.position := by
  unfold tapClause; split <;> rfl

@[simp] theorem tapClause_leadingByte (a : Assembly) (b : Byte) : (tapClause a b).leadingByte = a.leadingByte := by
  unfold tapClause; split <;> rfl

@[simp] theorem tapClause_out (a : Assembly) (b : Byte) : (tapClause a b).out = a.out := by
  unfold tapClause; split <;> rfl

@[simp] theorem tapClause_fill (a : Assembly) (b : Byte) : (tapClause a b).fill = a.fill := by
  unfold tapClause; split <;> rfl

/-- R124, R125: a byte that is not discarded is stored, and then the completion test is made. -/
theorem stepByte_stored {a : Assembly} {b : Byte} (hb : a.position = 0 → b ∈ leadBytes)
    (hp : a.position.toNat < maxFrame) : stepByte a b = completionClause (stored a b) := by
  have h1 : ¬ (a.position = 0 ∧ b ∉ leadBytes) := fun h => h.2 (hb h.1)
  rw [stepByte, if_neg h1]
  show (if (startClause a b).position.toNat < maxFrame then _ else _) = _
  rw [startClause_position, if_pos hp, stored]

/-- R126 -/
theorem stepByte_exhausted {a : Assembly} {b : Byte} (hp : maxFrame ≤ a.position.toNat) :
    stepByte a b =
      { asm := { a with position := 0, leadingByte := 0x00 }, frame := none, label := some (.oversize b) } := by
  have h0 : a.position ≠ 0 := by
    intro h; rw [h] at hp; revert hp; decide
  have h1 : ¬ (a.position = 0 ∧ b ∉ leadBytes) := fun h => h0 h.1
  have h2 : startClause a b = a := if_neg h0
  rw [stepByte, if_neg h1]
  show (if (startClause a b).position.toNat < maxFrame then _ else _) = _
  rw [h2, if_neg (Nat.not_lt.mpr hp), exhaustedClause]

theorem stored_position {a : Assembly} {b : Byte} (hp : a.position.toNat < maxFrame) :
    (stored a b).position.toNat = a.position.toNat + 1 := by
  unfold maxFrame at hp
  simp only [stored, storeClause, tapClause_position, startClause_position, BitVec.toNat_add]
  simp
  omega

@[simp] theorem stored_fill (a : Assembly) (b : Byte) : (stored a b).fill = a.fill := by simp [stored, storeClause]

@[simp] theorem stored_out (a : Assembly) (b : Byte) :
    (stored a b).out = Memory.store a.out a.position.toNat b := by simp [stored, storeClause]

theorem outRead_stored (a : Assembly) (b : Byte) (j : Nat) :
    outRead (stored a b) j = if j = a.position.toNat then b else outRead a j := by
  unfold outRead
  rw [stored_out, stored_fill, Memory.lookup_store]
  split <;> rfl

theorem stored_leadingByte (a : Assembly) (b : Byte) :
    (stored a b).leadingByte = if a.position = 0 then b else a.leadingByte := by
  simp only [stored, storeClause, outWrite, tapClause_leadingByte, startClause]
  split <;> rfl

theorem stored_expectedLength (a : Assembly) (b : Byte) :
    (stored a b).expectedLength =
      if a.position = 0 then expInit
      else if a.position.toNat = 5 ∧ a.leadingByte ∈ varLeadBytes then extendedLength b
      else a.expectedLength := by
  by_cases h : a.position = 0
  · simp [stored, storeClause, outWrite, tapClause, startClause, h, defaultLength]
  · simp only [stored, storeClause, outWrite, tapClause, startClause, h, if_false, defaultLength]
    split <;> rfl

/-- Exactly one of four things happens to each byte (R120). -/
theorem stepByte_cases (a : Assembly) (b : Byte) :
    (a.position = 0 ∧ b ∉ leadBytes ∧ stepByte a b = { asm := a, frame := none, label := some (.noise b) }) ∨
    ((a.position = 0 → b ∈ leadBytes) ∧ a.position.toNat < maxFrame ∧
      (stored a b).position.toNat ≤ (stored a b).expectedLength.toNat ∧
      stepByte a b = { asm := stored a b, frame := none, label := none }) ∨
    ((a.position = 0 → b ∈ leadBytes) ∧ a.position.toNat < maxFrame ∧
      (stored a b).expectedLength.toNat < (stored a b).position.toNat ∧
      stepByte a b = { asm := { stored a b with position := 0 },
                       frame := some (frameBytes (stored a b) (stored a b).position.toNat), label := none }) ∨
    (maxFrame ≤ a.position.toNat ∧
      stepByte a b =
        { asm := { a with position := 0, leadingByte := 0x00 }, frame := none, label := some (.oversize b) }) := by
  by_cases h1 : a.position = 0 ∧ b ∉ leadBytes
  · exact .inl ⟨h1.1, h1.2, stepByte_noise h1.1 h1.2⟩
  have hb : a.position = 0 → b ∈ leadBytes := fun h => by_contra fun hb => h1 ⟨h, hb⟩
  by_cases hp : a.position.toNat < maxFrame
  · have hs := stepByte_stored hb hp
    by_cases hc : (stored a b).expectedLength.toNat < (stored a b).position.toNat
    · exact .inr (.inr (.inl ⟨hb, hp, hc, by rw [hs, completionClause, if_pos hc]⟩))
    · exact .inr (.inl ⟨hb, hp, Nat.not_lt.mp hc, by rw [hs, completionClause, if_neg hc]⟩)
  · exact .inr (.inr (.inr ⟨Nat.not_lt.mp hp, stepByte_exhausted (Nat.not_lt.mp hp)⟩))

end Sys2Proof.Machine
end

