-- ==== Sys2Proof/Laws/Ring.lean ====
section
/-! SUPPORT. The ring: index arithmetic (R104), and what a push and a pop do to the bytes held (R33, R62). -/

namespace Sys2Proof.Machine

theorem nextIndex_eq (i : Index) : nextIndex i = i + 1 := by
  apply BitVec.eq_of_toNat_eq
  have := i.isLt
  simp [nextIndex, ringSlots]

theorem nextIndex_toNat (i : Index) : (nextIndex i).toNat = (i.toNat + 1) % 256 := by
  simp [nextIndex, ringSlots]

theorem ringSize_lt (r : RingBuffer) : ringSize r < 256 := Nat.mod_lt _ (by decide)

theorem ringEmpty_iff (r : RingBuffer) : ringEmpty r = true ↔ ringSize r = 0 := by
  have h := r.head.isLt
  have t := r.tail.isLt
  simp only [ringEmpty, beq_iff_eq, ringSize, ringSlots, ← BitVec.toNat_inj]
  omega

theorem ringFull_iff (r : RingBuffer) : ringFull r = true ↔ ringSize r = 255 := by
  have h := r.head.isLt
  have t := r.tail.isLt
  simp only [ringFull, beq_iff_eq, ringSize, ringSlots, ← BitVec.toNat_inj, nextIndex_toNat]
  omega

theorem ringSize_push {r : RingBuffer} (b : Byte) (h : ringFull r = false) :
    ringSize (pushByte r b) = ringSize r + 1 := by
  have h1 := r.head.isLt
  have h2 := r.tail.isLt
  have h3 : ¬ ringFull r = true := by simp [h]
  rw [ringFull_iff] at h3
  simp only [ringSize, ringSlots, pushByte_head, pushByte_tail, nextIndex_toNat] at h3 ⊢
  omega

@[simp] theorem heldBytes_length (r : RingBuffer) : (heldBytes r).length = ringSize r := by simp [heldBytes]

/-- A read of the ring after a push: the slot at the old `head` holds the byte, the others what they held. -/
@[simp] theorem ringRead_push (r : RingBuffer) (b : Byte) (j : Nat) :
    ringRead (pushByte r b) j = if j = r.head.toNat then b else ringRead r j :=
  ringRead_write r r.head.toNat j b

theorem heldBytes_push {r : RingBuffer} (b : Byte) (h : ringFull r = false) :
    heldBytes (pushByte r b) = heldBytes r ++ [b] := by
  have h1 := r.head.isLt
  have h2 := r.tail.isLt
  have h3 : ¬ ringFull r = true := by simp [h]
  rw [ringFull_iff] at h3
  unfold heldBytes
  rw [ringSize_push b h, List.range_succ, List.map_append]
  congr 1
  · apply List.map_congr_left
    intro k hk
    rw [List.mem_range] at hk
    have : (r.tail.toNat + k) % 256 ≠ r.head.toNat := by
      simp only [ringSize, ringSlots] at hk h3
      omega
    simp [ringSlots, this]
  · have : (r.tail.toNat + ringSize r) % 256 = r.head.toNat := by
      simp only [ringSize, ringSlots]
      omega
    simp [ringSlots, this]

theorem popByte_eq_none_iff (r : RingBuffer) : popByte r = none ↔ ringSize r = 0 := by
  rw [← ringEmpty_iff]
  unfold popByte
  split <;> simp_all

/-- Everything a pop of a ring that holds a byte can do. -/
theorem popByte_eq_some {r r' : RingBuffer} {b : Byte} (h : popByte r = some (b, r')) :
    ringSize r ≠ 0 ∧ b = ringRead r r.tail.toNat ∧ r' = { r with tail := nextIndex r.tail } := by
  have h0 : ringSize r ≠ 0 := by
    intro h0
    rw [(popByte_eq_none_iff r).mpr h0] at h
    cases h
  unfold popByte at h
  split at h
  · cases h
  · simp only [Option.some.injEq, Prod.mk.injEq] at h
    exact ⟨h0, h.1.symm, h.2.symm⟩

theorem popByte_of_nonempty {r : RingBuffer} (h : ringSize r ≠ 0) :
    popByte r = some (ringRead r r.tail.toNat, { r with tail := nextIndex r.tail }) := by
  have : ringEmpty r = false := by
    rw [Bool.eq_false_iff, ne_eq, ringEmpty_iff]
    exact h
  simp [popByte, this]

theorem ringSize_pop {r : RingBuffer} (h : ringSize r ≠ 0) :
    ringSize { r with tail := nextIndex r.tail } + 1 = ringSize r := by
  have h1 := r.head.isLt
  have h2 := r.tail.isLt
  simp only [ringSize, ringSlots, nextIndex_toNat] at h ⊢
  omega

theorem heldBytes_pop {r r' : RingBuffer} {b : Byte} (h : popByte r = some (b, r')) :
    heldBytes r = b :: heldBytes r' := by
  obtain ⟨h0, rfl, rfl⟩ := popByte_eq_some h
  have h2 := r.tail.isLt
  unfold heldBytes
  rw [← ringSize_pop h0, List.range_succ_eq_map, List.map_cons, List.map_map]
  congr 1
  · simp [ringSlots, Nat.mod_eq_of_lt h2]
  · apply List.map_congr_left
    intro k _
    have : (r.tail.toNat + (k + 1)) % 256 = ((r.tail.toNat + 1) % 256 + k) % 256 := by omega
    simp only [Function.comp, Nat.succ_eq_add_one, ringSlots, nextIndex_toNat, this]
    rfl

theorem heldBytes_eq_nil_iff (r : RingBuffer) : heldBytes r = [] ↔ popByte r = none := by
  rw [popByte_eq_none_iff, ← heldBytes_length, List.length_eq_zero_iff]

end Sys2Proof.Machine
end

