-- ==== Sys2Proof/Laws/Exec.lean ====
section
/-! SUPPORT. What an iteration of `FEED` and a byte of it do, field by field; that every leading byte's instruction is an
iteration of `FEED`; and once for all what a step, and what an instruction, can do. -/

namespace Sys2Proof.Machine

/-- All of a consumed byte's effect in one equation. -/
theorem consumeByte_eq (b : Byte) (s : State) :
    consumeByte b s =
      { s with
        asm := (stepByte s.asm b).asm
        feeding := (stepByte s.asm b).frame.isNone
        delivered := s.delivered ++ (stepByte s.asm b).frame.toList.map fun f => feedResult (some f)
        events := s.events ++ (stepByte s.asm b).label.toList } := by
  unfold consumeByte
  obtain ⟨a, _ | f, _ | e⟩ := stepByte s.asm b <;> simp [finishByte, noteAll, note, deliver]

@[simp] theorem consumeByte_asm (b : Byte) (s : State) : (consumeByte b s).asm = (stepByte s.asm b).asm := by
  rw [consumeByte_eq]

@[simp] theorem consumeByte_ring (b : Byte) (s : State) : (consumeByte b s).ring = s.ring := by
  rw [consumeByte_eq]

@[simp] theorem consumeByte_feeding (b : Byte) (s : State) :
    (consumeByte b s).feeding = (stepByte s.asm b).frame.isNone := by
  rw [consumeByte_eq]

@[simp] theorem consumeByte_delivered (b : Byte) (s : State) :
    (consumeByte b s).delivered = s.delivered ++ (stepByte s.asm b).frame.toList.map fun f => feedResult (some f) := by
  rw [consumeByte_eq]

@[simp] theorem consumeByte_events (b : Byte) (s : State) :
    (consumeByte b s).events = s.events ++ (stepByte s.asm b).label.toList := by
  rw [consumeByte_eq]

@[simp] theorem consumeByte_producerPort (b : Byte) (s : State) : (consumeByte b s).producerPort = s.producerPort := by
  rw [consumeByte_eq]

@[simp] theorem consumeByte_consumerPort (b : Byte) (s : State) : (consumeByte b s).consumerPort = s.consumerPort := by
  rw [consumeByte_eq]

@[simp] theorem consumeByte_schedule (b : Byte) (s : State) : (consumeByte b s).schedule = s.schedule := by
  rw [consumeByte_eq]

theorem feedIteration_of_pop {s : State} {b : Byte} {r : RingBuffer} (h : popByte s.ring = some (b, r)) :
    feedIteration s = consumeByte b { s with ring := r } := by
  simp only [feedIteration, h]

theorem feedIteration_of_empty {s : State} (h : popByte s.ring = none) :
    feedIteration s =
      { s with feeding := false, delivered := s.delivered ++ [.feed 0 []], events := s.events ++ [.starved] } := by
  simp only [feedIteration, h]
  rfl

theorem exec_ringPush (b : Byte) (s : State) :
    exec (.ringPush b) s =
      if ringFull s.ring then .next (note (.overflow b) s) else .next { s with ring := pushByte s.ring b } := rfl

theorem exec_ringPush_of_full {b : Byte} {s : State} (h : ringFull s.ring = true) :
    exec (.ringPush b) s = .next (note (.overflow b) s) := by
  rw [exec_ringPush, if_pos h]

theorem exec_ringPush_of_room {b : Byte} {s : State} (h : ringFull s.ring = false) :
    exec (.ringPush b) s = .next { s with ring := pushByte s.ring b } := by
  rw [exec_ringPush, if_neg (by simp [h])]

theorem exec_ringPop_of_pop {s : State} {b : Byte} {r : RingBuffer} (h : popByte s.ring = some (b, r)) :
    exec .ringPop s = .next (deliver (popResult (some b)) { s with ring := r }) := by
  simp only [exec, execRingPop, h]

theorem exec_ringPop_of_empty {s : State} (h : popByte s.ring = none) :
    exec .ringPop s = .next (deliver (popResult none) s) := by
  simp only [exec, execRingPop, h]

theorem exec_feed (s : State) : exec .feed s = .next (feedIteration s) := rfl

/-- A leading byte's instruction is the `STEP` of that byte in a `FEED`. -/
theorem exec_of_encode_frameByte {i : Instr} {b : Byte} (h : encode i = .frameByte b) (s : State) :
    exec i s = .next (consumeByte b s) := by
  cases i <;> simp only [encode, reduceCtorEq, CodeUnit.frameByte.injEq] at h <;> subst h <;> rfl

/-- `decodeLead` accepts exactly the bytes that some instruction is encoded in. -/
theorem decodeLead_ok {b : Byte} {i : Instr} (h : decodeLead b = .ok i) : encode i = .frameByte b := by
  have hb : b = BitVec.ofNat 8 b.toNat := by simp
  unfold decodeLead at h
  split at h <;> first
    | (rename_i hn; rw [hn] at hb; cases h; subst hb; rfl)
    | cases h

theorem mem_leadBytes_of_encode {i : Instr} {b : Byte} (h : encode i = .frameByte b) : b ∈ leadBytes := by
  cases i <;> simp only [encode, reduceCtorEq, CodeUnit.frameByte.injEq] at h <;> subst h <;> decide

/-- Taking a leading byte from the ring and running its instruction is `FEED`'s iteration on that byte. -/
theorem exec_lead_eq_exec_feed {s : State} {b : Byte} {r : RingBuffer} {i : Instr}
    (hp : popByte s.ring = some (b, r)) (hi : decodeLead b = .ok i) :
    exec i { s with ring := r } = exec .feed s := by
  rw [exec_feed, feedIteration_of_pop hp, exec_of_encode_frameByte (decodeLead_ok hi)]

/-- Whatever way an iteration of `FEED` is fetched, running it is `exec .feed`. -/
theorem fetchFeed_run (s : State) : ∃ i t, fetchFeed s = .run i t ∧ exec i t = exec .feed s := by
  unfold fetchFeed
  split
  · split
    · rename_i b r hp
      split
      · rename_i i hi
        exact ⟨i, _, rfl, exec_lead_eq_exec_feed hp hi⟩
      · exact ⟨_, _, rfl, rfl⟩
    · exact ⟨_, _, rfl, rfl⟩
  · exact ⟨_, _, rfl, rfl⟩

theorem decodeCommandAt_cases (p : Port) (w : CmdWord) :
    decodeCommandAt p w = .ok (decodeCommand w) ∨ decodeCommandAt p w = .error (.wrongPort p) := by
  unfold decodeCommandAt
  simp only
  split <;> simp

/-- A word on a port is refused, or is an operation that runs: `FEED` as its next iteration. -/
theorem fetchCommand_cases (p : Port) (w : CmdWord) (s : State) :
    (decodeCommandAt p w = .error (.wrongPort p) ∧ fetchCommand p w s = .refuse .wrongPort) ∨
    (decodeCommandAt p w = .ok (decodeCommand w) ∧
      ∃ i t, fetchCommand p w s = .run i t ∧ exec i t = exec (decodeCommand w) s) := by
  rcases decodeCommandAt_cases p w with hd | hd
  · refine .inr ⟨hd, ?_⟩
    unfold fetchCommand
    rw [hd]
    generalize decodeCommand w = d
    cases d with
    | feed => exact fetchFeed_run s
    | _ => exact ⟨_, _, rfl, rfl⟩
  · refine .inl ⟨hd, ?_⟩
    unfold fetchCommand
    rw [hd]

/-- A port refuses exactly the words that it does not accept. -/
theorem refusalOn_eq_none_iff (p : Port) (w : CmdWord) :
    refusalOn p w = none ↔ (decodeCommand w).acceptedOn p = true := by
  unfold refusalOn decodeCommandAt
  generalize decodeCommand w = i
  cases p <;> cases i <;> simp [Instr.wellFormed, Instr.acceptedOn]

/-- A reserved word is refused as such on either port. -/
theorem refusalOn_of_reserved {p : Port} {w : CmdWord} {low : BitVec 9} (h : decodeCommand w = .reservedOp low) :
    refusalOn p w = some .reservedCommand := by
  unfold refusalOn decodeCommandAt
  rw [h]
  rfl

/-- An operation that the port does not accept is refused as such. -/
theorem refusalOn_of_wrongPort {p : Port} {w : CmdWord} (h : (decodeCommand w).wellFormed = true)
    (ha : (decodeCommand w).acceptedOn p = false) : refusalOn p w = some .wrongPort := by
  simp [refusalOn, decodeCommandAt, h, ha]

theorem presentedRefusal_eq_none_iff (p : Port) (presents : Bool) (words : List CmdWord) :
    presentedRefusal p presents words = none ↔
      (presents = true → ∀ w ∈ words.head?, (decodeCommand w).acceptedOn p = true) := by
  unfold presentedRefusal
  cases presents <;> cases words <;> simp [refusalOn_eq_none_iff]

/-- A hardware reset goes through exactly when each port presents nothing or a word that it accepts. -/
theorem resetRefusal_eq_none_iff (p c : Bool) (s : State) :
    resetRefusal p c s = none ↔
      (p = true → ∀ w ∈ s.producerPort.head?, (decodeCommand w).acceptedOn .producer = true) ∧
      (c = true → s.feeding = false → ∀ w ∈ s.consumerPort.head?, (decodeCommand w).acceptedOn .consumer = true) := by
  unfold resetRefusal
  rw [Option.or_eq_none_iff, presentedRefusal_eq_none_iff, presentedRefusal_eq_none_iff]
  simp [Bool.and_eq_true]

/-- What a step can do: nothing more than the turn itself, a hardware reset, a refusal of a word that its port does not
accept, a command of the producer or the consumer, or an iteration of a `FEED` in progress. -/
theorem step_cases (s : State) :
    (s.schedule = [] ∧ step s = .next s) ∨
    (∃ rest, s.schedule = .producer :: rest ∧ s.producerPort = [] ∧ step s = .next { s with schedule := rest }) ∨
    (∃ rest w ws, s.schedule = .producer :: rest ∧ s.producerPort = w :: ws ∧
      ((decodeCommandAt .producer w = .error (.wrongPort .producer) ∧ step s = .refused .wrongPort) ∨
       (decodeCommandAt .producer w = .ok (decodeCommand w) ∧
        step s = exec (decodeCommand w) { s with schedule := rest, producerPort := ws }))) ∨
    (∃ rest, s.schedule = .consumer :: rest ∧ s.feeding = true ∧ step s = exec .feed { s with schedule := rest }) ∨
    (∃ rest, s.schedule = .consumer :: rest ∧ s.feeding = false ∧ s.consumerPort = [] ∧
      step s = .next { s with schedule := rest }) ∨
    (∃ rest w ws, s.schedule = .consumer :: rest ∧ s.feeding = false ∧ s.consumerPort = w :: ws ∧
      ((decodeCommandAt .consumer w = .error (.wrongPort .consumer) ∧ step s = .refused .wrongPort) ∨
       (decodeCommandAt .consumer w = .ok (decodeCommand w) ∧
        step s = exec (decodeCommand w) { s with schedule := rest, consumerPort := ws }))) ∨
    (∃ rest p c, s.schedule = .hardwareReset p c :: rest ∧
      ((∃ r, resetRefusal p c s = some r ∧ step s = .refused r) ∨
       (resetRefusal p c s = none ∧ step s = .next (hardwareReset p c { s with schedule := rest })))) := by
  match hs : s.schedule with
  | [] => exact .inl ⟨rfl, by simp only [step, fetch, hs]⟩
  | .producer :: rest =>
    cases hp : s.producerPort with
    | nil => exact .inr (.inl ⟨rest, rfl, rfl, by simp only [step, fetch, fetchProducer, hs, hp]⟩)
    | cons w ws =>
      refine .inr (.inr (.inl ⟨rest, w, ws, rfl, rfl, ?_⟩))
      rcases fetchCommand_cases .producer w { s with schedule := rest, producerPort := ws } with
        ⟨hd, hf⟩ | ⟨hd, i, t, hf, he⟩
      · exact .inl ⟨hd, by simp only [step, fetch, fetchProducer, hs, hp, hf]⟩
      · exact .inr ⟨hd, by simp only [step, fetch, fetchProducer, hs, hp, hf, he]⟩
  | .consumer :: rest =>
    cases hf : s.feeding with
    | true =>
      refine .inr (.inr (.inr (.inl ⟨rest, rfl, rfl, ?_⟩)))
      obtain ⟨i, t, h1, h2⟩ := fetchFeed_run { s with schedule := rest }
      rw [hf] at h1 h2
      simp only [step, fetch, fetchConsumer, hs, hf, if_true, h1, h2]
    | false =>
      cases hp : s.consumerPort with
      | nil =>
        exact .inr (.inr (.inr (.inr (.inl ⟨rest, rfl, rfl, rfl, by simp [step, fetch, fetchConsumer, hs, hp, hf]⟩))))
      | cons w ws =>
        refine .inr (.inr (.inr (.inr (.inr (.inl ⟨rest, w, ws, rfl, rfl, rfl, ?_⟩)))))
        rcases fetchCommand_cases .consumer w { s with schedule := rest, consumerPort := ws } with
          ⟨hd, hf'⟩ | ⟨hd, i, t, hf', he⟩
        · rw [hf] at hf'
          exact .inl ⟨hd, by simp [step, fetch, fetchConsumer, hs, hp, hf, hf']⟩
        · rw [hf] at hf' he
          exact .inr ⟨hd, by simp [step, fetch, fetchConsumer, hs, hp, hf, hf', he]⟩
  | .hardwareReset p c :: rest =>
    refine .inr (.inr (.inr (.inr (.inr (.inr ⟨rest, p, c, rfl, ?_⟩)))))
    have hr : resetRefusal p c { s with schedule := rest } = resetRefusal p c s := rfl
    cases h : resetRefusal p c s with
    | some r => exact .inl ⟨r, rfl, by simp only [step, fetch, fetchReset, hs, hr, h]⟩
    | none => exact .inr ⟨rfl, by simp only [step, fetch, fetchReset, hs, hr, h]⟩

/-- A frame that completes has one byte more than `position` before it, and at most 65 (R125 (e)). -/
theorem stepByte_frame {a : Assembly} {b : Byte} {f : List Byte} (h : (stepByte a b).frame = some f) :
    f.length = a.position.toNat + 1 ∧ f.length ≤ 65 ∧ (stepByte a b).label = none ∧ (stepByte a b).asm.position = 0 := by
  rcases stepByte_cases a b with ⟨_, _, h'⟩ | ⟨hb, hp, hc, h'⟩ | ⟨hb, hp, hc, h'⟩ | ⟨_, h'⟩ <;> rw [h'] at h <;> cases h
  rw [h']
  unfold maxFrame at hp
  refine ⟨by simp [frameBytes, stored_position hp], ?_, rfl, rfl⟩
  simp only [frameBytes, List.length_map, List.length_range, stored_position hp]
  omega

/-- The consumer reads a completed frame off the port (R82). -/
theorem deliveredFrame_feedResult {f : List Byte} (h1 : 0 < f.length) (h2 : f.length ≤ 65) :
    deliveredFrame (feedResult (some f)) = some f := by
  simp only [feedResult, deliveredFrame]
  rw [if_neg]
  intro h
  have := congrArg BitVec.toNat h
  simp only [BitVec.toNat_ofNat, BitVec.ofNat_eq_ofNat] at this
  omega

/-- Everything an instruction that answers a next state can do to the ring and to the assembly state. -/
theorem exec_next_cases {i : Instr} {s t : State} (h : exec i s = .next t) :
    (t.ring = s.ring ∨ t.ring = clearRing s.ring ∨ (∃ b, ringFull s.ring = false ∧ t.ring = pushByte s.ring b) ∨
      ∃ b, popByte s.ring = some (b, t.ring)) ∧
    (t.asm = s.asm ∨ t.asm = clearAssembly s.asm ∨ ∃ b, t.asm = (stepByte s.asm b).asm) := by
  have hlead : ∀ b, Host.Outcome.next (ρ := Refusal) (φ := Fault) (consumeByte b s) = .next t → t = consumeByte b s :=
    fun b h => by cases h; rfl
  cases i with
  | ringReset => cases h; exact ⟨.inr (.inl rfl), .inl rfl⟩
  | ringPush b =>
    rw [exec_ringPush] at h
    split at h <;> cases h
    · exact ⟨.inl rfl, .inl rfl⟩
    · exact ⟨.inr (.inr (.inl ⟨b, by simp_all, rfl⟩)), .inl rfl⟩
  | ringPop =>
    cases hp : popByte s.ring with
    | none => rw [exec_ringPop_of_empty hp] at h; cases h; exact ⟨.inl rfl, .inl rfl⟩
    | some br => rw [exec_ringPop_of_pop hp] at h; cases h; exact ⟨.inr (.inr (.inr ⟨br.1, rfl⟩)), .inl rfl⟩
  | ringSize => cases h; exact ⟨.inl rfl, .inl rfl⟩
  | feed =>
    rw [exec_feed] at h
    cases hp : popByte s.ring with
    | none => rw [feedIteration_of_empty hp] at h; cases h; exact ⟨.inl rfl, .inl rfl⟩
    | some br =>
      rw [feedIteration_of_pop (b := br.1) (r := br.2) hp] at h
      cases h
      exact ⟨.inr (.inr (.inr ⟨br.1, by rw [consumeByte_ring]⟩)), .inr (.inr ⟨br.1, by simp⟩)⟩
  | asmReset => cases h; exact ⟨.inl rfl, .inr (.inl rfl)⟩
  | reservedOp low => cases h
  | _ => rw [hlead _ h]; exact ⟨.inl (by simp), .inr (.inr ⟨_, by rw [consumeByte_asm]⟩)⟩

/-- Everything a step that answers a next state can do to the ring and to the assembly state. -/
theorem step_next_cases {s t : State} (h : step s = .next t) :
    (t.ring = s.ring ∨ t.ring = clearRing s.ring ∨ (∃ b, ringFull s.ring = false ∧ t.ring = pushByte s.ring b) ∨
      (∃ b, popByte s.ring = some (b, t.ring)) ∨ t.ring = forgetSlots (clearRing s.ring)) ∧
    (t.asm = s.asm ∨ t.asm = clearAssembly s.asm ∨ (∃ b, t.asm = (stepByte s.asm b).asm) ∨
      t.asm = forgetOut (clearAssembly s.asm)) := by
  have ex : ∀ {i u}, exec i u = .next t → u.ring = s.ring → u.asm = s.asm → _ := fun {i u} h h1 h2 => by
    have := exec_next_cases h
    rw [h1, h2] at this
    exact this
  rcases step_cases s with ⟨_, h'⟩ | ⟨_, _, _, h'⟩ | ⟨_, _, _, _, _, ⟨_, h'⟩ | ⟨_, h'⟩⟩ | ⟨_, _, _, h'⟩ | ⟨_, _, _, _, h'⟩ |
    ⟨_, _, _, _, _, _, ⟨_, h'⟩ | ⟨_, h'⟩⟩ | ⟨_, _, _, _, ⟨_, _, h'⟩ | ⟨_, h'⟩⟩ <;> rw [h'] at h <;> first
    | (cases h; simp [hardwareReset]; done)
    | (cases h; done)
    | (obtain ⟨h1, h2⟩ := ex h rfl rfl
       exact ⟨by rcases h1 with h1 | h1 | h1 | h1 <;> simp [h1], by rcases h2 with h1 | h1 | h1 <;> simp [h1]⟩)

/-- One step more of a run of any machine. -/
theorem run_succ_of_step (M : Host.Core) {s t : M.State} (k : Nat) (h : M.step s = .next t) :
    M.run (k + 1) s = M.run k t := by
  simp [Host.Core.run, h]

/-- One step more of a run of the block. -/
theorem core_run_succ {s t : State} (k : Nat) (h : step s = .next t) :
    Host.Core.run core (k + 1) s = Host.Core.run core k t := run_succ_of_step core k h

end Sys2Proof.Machine
end

