-- ==== Sys2Proof/Laws/PerInstr.lean ====
section
/-! SUPPORT. Per instruction: the opcode table's row of an instruction selects its encoding. -/

namespace Sys2Proof.Laws.RowMatch

/-- "A word selects an operation when `cw AND mask == match`" (R81), and byte 0 of a frame likewise (R76). -/
def Statement (i : Instr) : Prop := maskedBy i (encode i) = rowMatch i

theorem ringReset : Statement .ringReset := rfl
theorem ringPush (b : BitVec 8) : Statement (.ringPush b) := by
  revert b; unfold Statement; decide
theorem ringPop : Statement .ringPop := rfl
theorem ringSize : Statement .ringSize := rfl
theorem feed : Statement .feed := rfl
theorem asmReset : Statement .asmReset := rfl
theorem reservedOp (low : BitVec 9) : Statement (.reservedOp low) := by
  revert low
  simp only [Statement, maskedBy, encode, rowMatch, Instr.wellFormed, Bool.false_eq_true, if_false, CodeUnit.command.injEq]
  decide
theorem lead62 : Statement .lead62 := rfl
theorem lead60 : Statement .lead60 := rfl
theorem lead67 : Statement .lead67 := rfl
theorem lead75 : Statement .lead75 := rfl
theorem lead71 : Statement .lead71 := rfl
theorem lead64 : Statement .lead64 := rfl
theorem lead68 : Statement .lead68 := rfl
theorem lead7B : Statement .lead7B := rfl
theorem lead7C : Statement .lead7C := rfl

end Sys2Proof.Laws.RowMatch
end

