-- ==== Sys2Proof/Laws/Streams.lean ====
section
/-! SUPPORT. Byte streams and runs of instructions taken apart. -/

namespace Sys2Proof.Machine

/-- `STEP` over a stream in two parts. -/
theorem absorb_append (a : Assembly) (xs ys : List Byte) :
    absorb a (xs ++ ys) =
      { asm := (absorb (absorb a xs).asm ys).asm,
        frames := (absorb a xs).frames ++ (absorb (absorb a xs).asm ys).frames,
        labels := (absorb a xs).labels ++ (absorb (absorb a xs).asm ys).labels } := by
  induction xs generalizing a with
  | nil => simp [absorb]
  | cons x xs ih => simp [absorb, ih]

/-- Everything that pushing bytes for which there is room can do. -/
theorem runInstrs_pushSeq (bytes : List Byte) (s : State) (h : ringSize s.ring + bytes.length ≤ 255) :
    ∃ r, runInstrs (pushSeq bytes) s = some { s with ring := r } ∧ heldBytes r = heldBytes s.ring ++ bytes ∧
      r.tail = s.ring.tail := by
  induction bytes generalizing s with
  | nil => exact ⟨s.ring, rfl, by simp, rfl⟩
  | cons b bytes ih =>
    rw [List.length_cons] at h
    have hf : ringFull s.ring = false := by
      rw [Bool.eq_false_iff, ne_eq, ringFull_iff]
      omega
    obtain ⟨r, h1, h2, h3⟩ := ih { s with ring := pushByte s.ring b } (by rw [ringSize_push b hf]; omega)
    refine ⟨r, ?_, by rw [h2, heldBytes_push b hf, List.append_assoc]; rfl, h3⟩
    show (match exec (.ringPush b) s with | .next t => runInstrs (pushSeq bytes) t | _ => none) = _
    rw [exec_ringPush_of_room hf]
    exact h1

end Sys2Proof.Machine
end

