-- ==== Sys2Proof/Tests/Slice0.lean ====
section
/-! SUPPORT. Tests: words written out from the spec's encoding tables, the spec's own vectors (95_test_vectors.md), one
step each, and for each statement with hypotheses a state and operands that meet them. -/

namespace Sys2Proof.Tests

open Sys2Proof Sys2Proof.Machine

/-- The next state of an outcome. -/
def nextOf : Host.Outcome State Fault Refusal → Option State
  | .next s => some s
  | _ => none

/-- The refusal of an outcome. -/
def refusalOf : Host.Outcome State Fault Refusal → Option Refusal
  | .refused r => some r
  | _ => none

/-- `out[0 .. n)` written: the leading byte, 01 02 03 04, the byte `b5`, and 0x10 from index 6 on. -/
def written (l b5 : Byte) (n : Nat) : Memory :=
  ([(0, l), (1, 0x01), (2, 0x02), (3, 0x03), (4, 0x04), (5, b5)] ++
    (List.range 59).map fun i => ((i + 6, 0x10) : Host.Cell)).take n

/-- A ring with indices `h`, `t` and the slots given. -/
def ringOf (h t : Index) (slots : Memory) : RingBuffer := { slots := slots, fill := 0, head := h, tail := t }

/-- An assembly state in the middle of a frame: `p` bytes stored, threshold `e`, leading byte `l`, length byte `b5`. -/
def asmOf (p : BitVec 7) (e : BitVec 9) (l b5 : Byte) : Assembly :=
  { out := written l b5 p.toNat, fill := 0, position := p, expectedLength := e, leadingByte := l }

/-- The reset state with another ring. -/
def withRing (h t : Index) (slots : Memory) : State := { State.reset with ring := ringOf h t slots }

/-- A `FEED` in progress, the consumer's turn, one byte `b` held, in the middle of a frame. -/
def feedingOn (b : Byte) (p : BitVec 7) (e : BitVec 9) (l b5 : Byte) : State :=
  { State.reset with
    ring := ringOf 1 0 [(0, b)], asm := asmOf p e l b5, feeding := true, schedule := [.consumer] }

/-- `s` with another assembly state: `p` bytes stored, threshold `e`, leading byte `l`, length byte `b5`. -/
def inFrame (p : BitVec 7) (e : BitVec 9) (l b5 : Byte) : State := { State.reset with asm := asmOf p e l b5 }

/-- The reset state with one word on the producer port and the producer's turn. -/
def producerPresents (w : CmdWord) : State := { State.reset with producerPort := [w], schedule := [.producer] }

/-- The reset state with one word on the consumer port and the consumer's turn. -/
def consumerPresents (w : CmdWord) : State := { State.reset with consumerPort := [w], schedule := [.consumer] }

/-- The reset state with a word on each port, both presented at the instant of a hardware reset. -/
def resetPresents (p c : CmdWord) (feeding : Bool) : State :=
  { State.reset with producerPort := [p], consumerPort := [c], feeding := feeding, schedule := [.hardwareReset true true] }

/-! ### Ill-formed terms are refused -/

theorem test_reserved_is_ill_formed : (Instr.reservedOp 0).wellFormed = false := by decide
theorem test_push_is_ill_formed_on_consumer_port : (Instr.ringPush 0x62).acceptedOn .consumer = false := by decide
theorem test_feed_is_ill_formed_on_producer_port : Instr.feed.acceptedOn .producer = false := by decide
theorem test_lead_is_ill_formed_on_both_ports :
    Instr.lead62.acceptedOn .producer = false ∧ Instr.lead62.acceptedOn .consumer = false := by decide

/-! ### Decoding: words from R81's table, bytes from R76's table, bit by bit -/

theorem test_decode_ring_reset : decodeCommand 0b00000000000#11 = .ringReset := by decide
theorem test_decode_ring_push : decodeCommand 0b00101100010#11 = .ringPush 0x62 := by decide
theorem test_decode_ring_pop : decodeCommand 0b01000000000#11 = .ringPop := by decide
theorem test_decode_ring_size_ignores_data : decodeCommand 0b01111111111#11 = .ringSize := by decide
theorem test_decode_feed : decodeCommand 0b10000000000#11 = .feed := by decide
theorem test_decode_asm_reset : decodeCommand 0b10100000000#11 = .asmReset := by decide
theorem test_decode_reserved_six : decodeCommand 0b11000000001#11 = .reservedOp 0b000000001#9 := by decide
theorem test_decode_reserved_seven : decodeCommand 0b11111111110#11 = .reservedOp 0b111111110#9 := by decide
theorem test_decode_leads :
    (([0b01100010#8, 0b01100000#8, 0b01100111#8, 0b01110101#8, 0b01110001#8, 0b01100100#8, 0b01101000#8, 0b01111011#8,
      0b01111100#8]).map fun b => (decodeLead b).toOption) =
      ([.lead62, .lead60, .lead67, .lead75, .lead71, .lead64, .lead68, .lead7B, .lead7C] : List Instr).map some := by decide
theorem test_decode_lead_neighbours :
    ((([0x00, 0x61, 0x63, 0x7D, 0xAA, 0xFF] : List Byte).map fun b => (decodeLead b).toOption).all Option.isNone) = true := by
  decide
theorem test_port_rights : decodeCommandAt .producer 0x400 = .error (.wrongPort .producer) ∧
    decodeCommandAt .consumer 0x162 = .error (.wrongPort .consumer) ∧
    decodeCommandAt .producer 0x162 = .ok (.ringPush 0x62) := ⟨rfl, rfl, rfl⟩
theorem test_assembler_line : assemblerLine (.ringPush 0x62) = some "P: RING_PUSH 0x62" := by decide

/-! ### Fetching: the table's match words, placed at the reset state -/

theorem test_step_runs_each_table_row :
    ([(16, 0x000), (16, 0x100), (16, 0x200), (16, 0x300), (16, 0x400), (16, 0x500), (8, 0x62), (8, 0x60), (8, 0x67),
      (8, 0x75), (8, 0x71), (8, 0x64), (8, 0x68), (8, 0x7B), (8, 0x7C)] : List (Nat × Nat)).all
      (fun x => (nextOf (step (State.reset.withFetchWord x.1 x.2))).isSome && (decodeTableWord x.1 x.2).isSome) = true := by
  decide
theorem test_step_refuses_the_reserved_row :
    refusalOf (step (State.reset.withFetchWord 16 0x600)) = some .reservedCommand := by decide
/-- R84 at the instant of a hardware reset (assumption 14). -/
theorem test_hardware_reset_refuses_illegal_words :
    refusalOf (step (resetPresents 0x000 0x000 false)) = some .wrongPort ∧
    refusalOf (step (resetPresents 0x100 0x600 false)) = some .reservedCommand := by decide
/-- R173: a legal word is not performed; R80: a busy port presents none. -/
theorem test_hardware_reset_drops_the_word_presented :
    (nextOf (step (resetPresents 0x162 0x600 true))).map (fun s => (s.ring.head, s.producerPort, s.consumerPort, s.feeding)) =
      some (0, [], [0x600], false) := by decide
theorem test_step_starts_the_placed_frame :
    (nextOf (step (State.reset.withFetchWord 8 0x75))).map (fun s => (s.asm.position, s.asm.leadingByte, s.ring.head, s.ring.tail)) =
      some (1, 0x75, 1, 1) := by decide

/-! ### One step each, from the vectors of 95_test_vectors.md -/

/-- V-R1 -/
theorem test_ring_reset_empties : (nextOf (exec .ringReset (withRing 9 4 []))).map (fun s => (s.ring.head, s.ring.tail)) = some (0, 0) := by
  decide
/-- V-R7 -/
theorem test_ring_push_wraps_head :
    (nextOf (exec (.ringPush 0xA0) (withRing 255 3 []))).map (fun s => (s.ring.slots, s.ring.head, s.ring.tail)) =
      some ([(255, 0xA0)], 0, 3) := by decide
/-- V-R8 -/
theorem test_ring_push_drops_when_full :
    nextOf (exec (.ringPush 0xA3) (withRing 2 3 [])) = some { withRing 2 3 [] with events := [.overflow 0xA3] } := by decide
/-- V-R9; the port's result is `valid ++ byte` (R82). -/
theorem test_ring_pop_wraps_tail :
    (nextOf (exec .ringPop (withRing 5 255 [(255, 0x7F)]))).map (fun s => (s.delivered, s.ring.head, s.ring.tail)) =
      some ([.pop 0x17F], 5, 0) := by decide
/-- V-R4 -/
theorem test_ring_pop_empty : nextOf (exec .ringPop (withRing 1 1 [])) = some { withRing 1 1 [] with delivered := [.pop 0x000] } := by
  decide
/-- V-R10 -/
theorem test_ring_size_wrapped : (nextOf (exec .ringSize (withRing 2 250 []))).map State.delivered = some [.size 8] := by decide
/-- V-R12 -/
theorem test_ring_size_full : (nextOf (exec .ringSize (withRing 255 0 []))).map State.delivered = some [.size 255] := by decide
/-- V-F1 -/
theorem test_feed_starves : nextOf (exec .feed State.reset) =
    some { State.reset with delivered := [.feed 0 []], events := [.starved] } := by decide
/-- V-T16 -/
theorem test_feed_completes_nine_bytes :
    (nextOf (exec .feed (feedingOn 0xCC 8 8 0x75 0x03))).map (fun s => (s.asm.position, s.asm.expectedLength, s.feeding, s.delivered)) =
      some (0, 8, false, [.feed 9 [0x75, 0x01, 0x02, 0x03, 0x04, 0x03, 0x10, 0x10, 0xCC]]) := by decide
/-- V-A2 -/
theorem test_asm_reset_restores_threshold :
    (nextOf (exec .asmReset (inFrame 6 64 0x75 0x3B))).map (fun s => (s.asm.position, s.asm.expectedLength, s.asm.leadingByte)) =
      some (0, 6, 0x00) := by decide
/-- R131 (b): `out` and the ring are not touched. -/
theorem test_asm_reset_keeps_out :
    (nextOf (exec .asmReset (inFrame 3 6 0x62 0))).map (fun s => (s.asm.out, s.ring)) =
      some ([(0, 0x62), (1, 0x01), (2, 0x02)], RingBuffer.reset) := by decide
/-- R84 -/
theorem test_reserved_is_refused : refusalOf (exec (.reservedOp 0x1FF) State.reset) = some .reservedCommand := by decide
/-- V-T5: a `LEAD` value inside a frame is data. -/
theorem test_lead62_inside_frame_is_data :
    (nextOf (exec .lead62 (inFrame 3 6 0x64 0))).map (fun s => (s.asm.position, s.asm.leadingByte, Memory.lookup s.asm.out 3)) =
      some (4, 0x64, some 0x62) := by decide
/-- V-T18: at `position == 65` it is discarded unexamined. -/
theorem test_lead62_at_full_buffer :
    (nextOf (exec .lead62 (inFrame 65 65 0x75 0x3C))).map (fun s => (s.asm.position, s.asm.leadingByte, s.asm.expectedLength, s.events)) =
      some (0, 0x00, 65, [.oversize 0x62]) := by decide
/-- Example of R122: stale registers are overwritten. -/
theorem test_lead60_starts_frame :
    (nextOf (exec .lead60 (inFrame 0 8 0x75 0))).map (fun s => (s.asm.position, s.asm.expectedLength, s.asm.leadingByte, s.asm.out)) =
      some (1, 6, 0x60, [(0, 0x60)]) := by decide
/-- R122 -/
theorem test_lead67_starts_frame :
    (nextOf (exec .lead67 State.reset)).map (fun s => (s.asm.position, s.asm.leadingByte)) = some (1, 0x67) := by decide
/-- R122 -/
theorem test_lead75_starts_frame :
    (nextOf (exec .lead75 State.reset)).map (fun s => (s.asm.position, s.asm.leadingByte)) = some (1, 0x75) := by decide
/-- V-T12 -/
theorem test_lead71_completes_fixed_frame :
    (nextOf (exec .lead71 (inFrame 6 6 0x71 0x05))).map (fun s => (s.asm.position, s.delivered)) =
      some (0, [.feed 7 [0x71, 0x01, 0x02, 0x03, 0x04, 0x05, 0x71]]) := by decide
/-- R122 -/
theorem test_lead64_starts_frame :
    (nextOf (exec .lead64 State.reset)).map (fun s => (s.asm.position, s.asm.leadingByte)) = some (1, 0x64) := by decide
/-- R123 (e), R124: at position 5 of a fixed-class frame the byte is plain data. -/
theorem test_lead68_as_key_value :
    (nextOf (exec .lead68 (inFrame 5 6 0x7B 0))).map (fun s => (s.asm.position, s.asm.expectedLength)) = some (6, 6) := by decide
/-- V-T4 -/
theorem test_lead7B_overwrites_stale_registers :
    (nextOf (exec .lead7B (inFrame 0 8 0x75 0))).map (fun s => (s.asm.position, s.asm.expectedLength, s.asm.leadingByte)) =
      some (1, 6, 0x7B) := by decide
/-- R123: as the length byte of a variable-class frame, `n = 0x7C = 124`. -/
theorem test_lead7C_as_length_byte :
    (nextOf (exec .lead7C (inFrame 5 6 0x75 0))).map (fun s => (s.asm.position, s.asm.expectedLength)) = some (6, 129) := by decide

/-! ### Witnesses: each statement's hypotheses can be met -/

theorem witness_BlockWaitsForCommands :
    State.reset.schedule = [] ∧
    (({ State.reset with schedule := [.producer] } : State).schedule = .producer :: [] ∧ State.reset.producerPort = []) ∧
    (({ State.reset with schedule := [.consumer] } : State).schedule = .consumer :: [] ∧ State.reset.consumerPort = [] ∧
      State.reset.feeding = false) := by decide
theorem witness_HardwareResetIsBothResets :
    (resetPresents 0x100 0x600 true).schedule = .hardwareReset true true :: [] ∧
    (∀ w ∈ (resetPresents 0x1FF 0x600 true).producerPort.head?, (decodeCommand w).acceptedOn .producer = true) ∧
    (resetPresents 0x1FF 0x5FF false).feeding = false ∧
    (∀ w ∈ (resetPresents 0x1FF 0x5FF false).consumerPort.head?, (decodeCommand w).acceptedOn .consumer = true) := by decide
theorem witness_DecodeEncodeAgree : (Instr.ringPush 0xFF).acceptedOn .producer = true ∧ Instr.feed.acceptedOn .consumer = true := by
  decide
theorem witness_EveryWordHasOneRow :
    maskedBy (.ringPush 0) (.command 0x1FF) = rowMatch (.ringPush 0) ∧
    maskedBy (.reservedOp 0) (.command 0x7FF) = rowMatch (.reservedOp 0) := by decide
theorem witness_ReservedAndWrongPortWordsAreRefused :
    (∀ w ∈ ([0x600, 0x7FF] : List CmdWord), (producerPresents w).schedule = .producer :: [] ∧
      (producerPresents w).producerPort = w :: [] ∧ 6 ≤ (opField w).toNat) ∧
    (∀ w ∈ ([0x000, 0x0FF, 0x200, 0x5FF] : List CmdWord), (producerPresents w).schedule = .producer :: [] ∧
      (producerPresents w).producerPort = w :: [] ∧ (opField w).toNat ≤ 5 ∧ (opField w).toNat ≠ 1) ∧
    (∀ w ∈ ([0x600, 0x7FF] : List CmdWord), (consumerPresents w).schedule = .consumer :: [] ∧
      (consumerPresents w).feeding = false ∧ (consumerPresents w).consumerPort = w :: [] ∧ 6 ≤ (opField w).toNat) ∧
    (∀ w ∈ ([0x100, 0x1FF] : List CmdWord), (consumerPresents w).schedule = .consumer :: [] ∧
      (consumerPresents w).feeding = false ∧ (consumerPresents w).consumerPort = w :: [] ∧ (opField w).toNat = 1) := by decide
theorem witness_ReservedAndWrongPortWordsAreRefused_at_reset :
    ((resetPresents 0x600 0x000 false).schedule = .hardwareReset true true :: [] ∧
      (resetPresents 0x600 0x000 false).producerPort = 0x600 :: [] ∧ 6 ≤ (opField 0x600).toNat) ∧
    ((resetPresents 0x5FF 0x000 false).producerPort = 0x5FF :: [] ∧ (opField 0x5FF).toNat ≤ 5 ∧ (opField 0x5FF).toNat ≠ 1) ∧
    ((resetPresents 0x100 0x7FF false).feeding = false ∧ (resetPresents 0x100 0x7FF false).consumerPort = 0x7FF :: [] ∧
      (∀ v ∈ (resetPresents 0x100 0x7FF false).producerPort.head?, (decodeCommand v).acceptedOn .producer = true) ∧
      6 ≤ (opField 0x7FF).toNat) ∧
    ((resetPresents 0x100 0x1FF false).consumerPort = 0x1FF :: [] ∧ (opField 0x1FF).toNat = 1) := by decide
theorem witness_StepRunsTheCommandOnThePort :
    decodeCommandAt .producer 0x100 = .ok (.ringPush 0x00) ∧ Instr.ringPush 0x00 ≠ .feed ∧
    decodeCommandAt .consumer 0x5FF = .ok .asmReset ∧ Instr.asmReset ≠ .feed ∧
    ((producerPresents 0x100).schedule = .producer :: [] ∧ (producerPresents 0x100).producerPort = 0x100 :: []) ∧
    ((consumerPresents 0x5FF).schedule = .consumer :: [] ∧ (consumerPresents 0x5FF).feeding = false ∧
      (consumerPresents 0x5FF).consumerPort = 0x5FF :: []) := ⟨rfl, by decide, rfl, by decide, by decide, by decide⟩
theorem witness_StepMakesOneFeedIteration :
    (feedingOn 0x62 0 6 0x00 0).schedule = .consumer :: [] ∧ (feedingOn 0x62 0 6 0x00 0).feeding = true ∧
    (consumerPresents 0x4FF).schedule = .consumer :: [] ∧ (consumerPresents 0x4FF).feeding = false ∧
    (consumerPresents 0x4FF).consumerPort = 0x4FF :: [] ∧ decodeCommandAt .consumer 0x4FF = .ok .feed :=
  ⟨rfl, rfl, rfl, rfl, rfl, rfl⟩
theorem witness_StepRunsTheLeadingByte :
    (feedingOn 0x7C 0 6 0x00 0).schedule = .consumer :: [] ∧ (feedingOn 0x7C 0 6 0x00 0).feeding = true ∧
    (feedingOn 0x7C 0 6 0x00 0).asm.position = 0 ∧
    popByte (feedingOn 0x7C 0 6 0x00 0).ring = some (0x7C, ringOf 1 1 [(0, 0x7C)]) ∧
    decodeLead 0x7C = .ok .lead7C := ⟨rfl, rfl, rfl, rfl, rfl⟩

theorem witness_RingPushAppendsOrDrops :
    ((withRing 255 0 []).ring.head.toNat + 1) % 256 = (withRing 255 0 []).ring.tail.toNat ∧
    ¬ ((withRing 255 1 []).ring.head.toNat + 1) % 256 = (withRing 255 1 []).ring.tail.toNat := by decide
theorem witness_RingPopTakesTheOldest :
    (withRing 7 7 []).ring.head = (withRing 7 7 []).ring.tail ∧ ¬ (withRing 0 255 []).ring.head = (withRing 0 255 []).ring.tail := by
  decide
theorem witness_SizePromisesPops :
    (∀ i ∈ [Instr.ringPop, .ringPush 0x11], i = .ringPop ∨ ∃ b, i = .ringPush b) ∧
    [Instr.ringPop, .ringPush 0x11].count .ringPop ≤ ringSize (withRing 1 0 [(0, 0x62)]).ring := by
  refine ⟨fun i hi => ?_, by decide⟩
  rcases List.mem_cons.mp hi with rfl | hi
  · exact .inl rfl
  · exact .inr ⟨_, by simpa using hi⟩
/-- RingOperationsNeverBlock, RingRefinesTheQueue, SizeLaw. -/
theorem witness_RingOperations : (∀ i ∈ [Instr.ringReset, .ringPush 0xFF, .ringPop, .ringSize], isRingOp i = true) ∧
    ∀ i ∈ [Instr.ringPush 0xFF, .ringPop, .ringSize], isRingOp i = true ∧ i ≠ .ringReset := by decide
theorem witness_CapacityIs255 : ringSize State.reset.ring = 0 ∧ ringSize (withRing 255 255 []).ring = 0 := by decide
theorem witness_PushAndPopCommute :
    (ringEmpty (withRing 1 0 [(0, 0x62)]).ring = false ∧ ringFull (withRing 1 0 [(0, 0x62)]).ring = false) ∧
    (ringEmpty (withRing 254 0 []).ring = false ∧ ringFull (withRing 254 0 []).ring = false) := by decide
theorem witness_PushIsInvisibleUntilHeadMoves : ringFull (withRing 254 0 []).ring = false := by decide

theorem witness_NoiseIsDiscardedWhileIdle :
    popByte (feedingOn 0xAA 0 8 0x75 0).ring = some (0xAA, ringOf 1 1 [(0, 0xAA)]) ∧
    (feedingOn 0xAA 0 8 0x75 0).asm.position = 0 ∧ (0xAA : Byte) ∉ leadBytes := by decide
theorem witness_FrameStartIsAccepted :
    popByte (feedingOn 0x60 0 8 0x75 0).ring = some (0x60, ringOf 1 1 [(0, 0x60)]) ∧
    (feedingOn 0x60 0 8 0x75 0).asm.position = 0 ∧ (0x60 : Byte) ∈ leadBytes := by decide
theorem witness_LengthByteSetsTheThreshold :
    ([0x00, 0x01, 0xFF] : List Byte).all (fun b =>
      decide (popByte (feedingOn b 5 6 0x75 0).ring = some (b, ringOf 1 1 [(0, b)]) ∧
        (feedingOn b 5 6 0x75 0).asm.position = 5 ∧ (feedingOn b 5 6 0x75 0).asm.leadingByte ∈ varLeadBytes)) = true := by decide
theorem witness_ByteIsStored_and_CompletionIsStrict :
    ([(0, 6, 0x00), (1, 6, 0x64), (5, 6, 0x7B), (5, 6, 0x75), (6, 6, 0x71), (64, 64, 0x7C), (64, 65, 0x75)] :
      List (BitVec 7 × BitVec 9 × Byte)).all (fun x =>
      decide (popByte (feedingOn 0x62 x.1 x.2.1 x.2.2 0x3B).ring = some (0x62, ringOf 1 1 [(0, 0x62)]) ∧
        ((feedingOn 0x62 x.1 x.2.1 x.2.2 0x3B).asm.position = 0 → (0x62 : Byte) ∈ leadBytes) ∧
        (feedingOn 0x62 x.1 x.2.1 x.2.2 0x3B).asm.position.toNat < 65 ∧
        5 ≤ (feedingOn 0x62 x.1 x.2.1 x.2.2 0x3B).asm.expectedLength.toNat)) = true := by decide
/-- Both outcomes of the completion test occur: at position 6 with threshold 6, and with threshold 8. -/
theorem witness_CompletionIsStrict_both_ways :
    ((nextOf (exec .feed (feedingOn 0x62 6 6 0x71 0x05))).any fun t => !t.feeding) = true ∧
    ((nextOf (exec .feed (feedingOn 0x62 6 8 0x75 0x03))).any fun t => t.feeding) = true := by decide
theorem witness_OverlongFrameIsAbandoned :
    popByte (feedingOn 0x62 65 260 0x7C 0xFF).ring = some (0x62, ringOf 1 1 [(0, 0x62)]) ∧
    (feedingOn 0x62 65 260 0x7C 0xFF).asm.position.toNat = 65 := by decide
theorem witness_StarvedFeedReturnsNone : (withRing 9 9 []).ring.head = (withRing 9 9 []).ring.tail := by decide
/-- LeadingBytesStartFrames, LeadingBytesInsideAFrameAreData. -/
theorem witness_LeadingBytes :
    (([.lead62, .lead60, .lead67, .lead75, .lead71, .lead64, .lead68, .lead7B, .lead7C] : List Instr).map encode =
      ([0x62, 0x60, 0x67, 0x75, 0x71, 0x64, 0x68, 0x7B, 0x7C] : List Byte).map .frameByte) ∧ State.reset.asm.position = 0 ∧
    (0 < (inFrame 1 6 0x62 0).asm.position.toNat ∧ (inFrame 64 64 0x75 0x3B).asm.position.toNat < 65) ∧
    (inFrame 65 65 0x75 0x3C).asm.position.toNat = 65 := by decide

/-- The assembly states that stand for the rows of the transition table meet the invariant of R39. -/
theorem witness_idle_inv : (asmOf 0 8 0x75 0).Inv := by constructor <;> decide
theorem witness_header_inv : (asmOf 1 6 0x62 0).Inv ∧ (asmOf 4 6 0x7C 0).Inv := ⟨by constructor <;> decide, by constructor <;> decide⟩
theorem witness_fixed_inv : (asmOf 5 6 0x7B 0).Inv ∧ (asmOf 6 6 0x71 0).Inv := ⟨by constructor <;> decide, by constructor <;> decide⟩
theorem witness_variable_inv : (asmOf 5 6 0x75 0).Inv ∧ (asmOf 6 8 0x75 0x03).Inv := ⟨by constructor <;> decide, by constructor <;> decide⟩
theorem witness_last_byte_inv : (asmOf 64 64 0x7C 0x3B).Inv ∧ (asmOf 64 65 0x75 0x3C).Inv :=
  ⟨by constructor <;> decide, by constructor <;> decide⟩
theorem witness_full_inv : (asmOf 65 65 0x75 0x3C).Inv := by constructor <;> decide
theorem witness_TransitionTable :
    (asmOf 0 8 0x75 0).position.toNat = 0 ∧ ((0xAA : Byte) ∉ leadBytes ∧ (0x7C : Byte) ∈ leadBytes) ∧
    (1 ≤ (asmOf 1 6 0x62 0).position.toNat ∧ (asmOf 4 6 0x7C 0).position.toNat ≤ 4) ∧
    ((asmOf 5 6 0x7B 0).position.toNat = 5 ∧ (asmOf 5 6 0x7B 0).leadingByte ∈ fixLeadBytes) ∧
    ((asmOf 5 6 0x75 0).position.toNat = 5 ∧ (asmOf 5 6 0x75 0).leadingByte ∈ varLeadBytes) ∧
    (6 ≤ (asmOf 6 8 0x75 0x03).position.toNat ∧ (asmOf 6 8 0x75 0x03).position.toNat + 1 ≤ (asmOf 6 8 0x75 0x03).expectedLength.toNat) ∧
    ((asmOf 64 65 0x75 0x3C).position.toNat ≤ 64 ∧ (asmOf 64 65 0x75 0x3C).position.toNat + 1 ≤ (asmOf 64 65 0x75 0x3C).expectedLength.toNat) ∧
    (6 ≤ (asmOf 6 6 0x71 0).position.toNat ∧ (asmOf 6 6 0x71 0).expectedLength.toNat < (asmOf 6 6 0x71 0).position.toNat + 1) ∧
    ((asmOf 64 64 0x7C 0x3B).position.toNat ≤ 64 ∧
      (asmOf 64 64 0x7C 0x3B).expectedLength.toNat < (asmOf 64 64 0x7C 0x3B).position.toNat + 1) ∧
    (asmOf 65 65 0x75 0x3C).position.toNat = 65 := by decide

theorem witness_IncrementalDeliveryIsTransparent :
    ∀ i ∈ [Instr.ringPush 0x62, .feed], i = .feed ∨ ∃ b, i = .ringPush b := fun i hi => by
  rcases List.mem_cons.mp hi with rfl | hi
  · exact .inr ⟨_, rfl⟩
  · exact .inl (by simpa using hi)

/-- NoiseRunsAreDiscarded, FixedFrameTakesSevenBytes, VariableFrameTakesItsWireLength, OverlongFrameCostsSixtySixBytes,
AdjacentFixedFramesLoseTheSecond, EveryByteIsAccountedFor. -/
theorem witness_Streams :
    State.reset.asm.position = 0 ∧ (∀ b ∈ ([0xAA, 0x01] : List Byte), b ∉ leadBytes) ∧ (0x62 : Byte) ∈ fixLeadBytes ∧
    (0x75 : Byte) ∈ varLeadBytes ∧ ((0x00 : Byte).toNat ≤ 59 ∧ ([] : List Byte).length = (0x00 : Byte).toNat) ∧
    ((0x3B : Byte).toNat ≤ 59 ∧ (List.replicate 59 (0x80 : Byte)).length = (0x3B : Byte).toNat) ∧
    (60 ≤ (0x3C : Byte).toNat ∧ 60 ≤ (0xFF : Byte).toNat ∧ (List.replicate 59 (0x10 : Byte)).length = 59) ∧
    (∀ c ∈ ([0x11, 0x12, 0x13, 0x14, 0x15] : List Byte), c ∉ leadBytes) ∧
    (State.reset.asm.position.toNat ≤ 65 ∧ (asmOf 65 65 0x75 0x3C).position.toNat ≤ 65) := by decide

theorem witness_SplitStreamsJoin :
    ringSize State.reset.ring = 0 ∧ ringSize (withRing 255 255 []).ring = 0 ∧
    (∀ piece ∈ ([[0x75, 0x01], [0x02], [], [0x03, 0x04, 0x01, 0xAA]] : List (List Byte)), piece.length ≤ 255) ∧
    ([[0x75, 0x01], [0x02], [], [0x03, 0x04, 0x01, 0xAA]] : List (List Byte)).flatten =
      [0x75, 0x01, 0x02, 0x03, 0x04, 0x01] ++ [0xAA] ∧
    (List.replicate 255 (0x00 : Byte)).length ≤ 255 ∧ ([0xAA] : List Byte).length = (0x01 : Byte).toNat :=
  ⟨by decide, by decide, by decide, by decide, List.length_replicate.le, by decide⟩

theorem witness_OneFramePerFeed :
    (feedWhole (withRing 9 9 [])).delivered = [.feed 0 []] ∧
    (feedWhole (feedingOn 0x60 6 6 0x62 0x05)).delivered = [.feed 7 [0x62, 0x01, 0x02, 0x03, 0x04, 0x05, 0x60]] := by
  decide

theorem witness_FeedEndsWhenTheProducerIsQuiet :
    ({ feedingOn 0x01 6 8 0x75 0x03 with schedule := [.consumer, .consumer] } : State).feeding = true ∧
    ({ feedingOn 0x01 6 8 0x75 0x03 with schedule := [.consumer, .consumer] } : State).schedule =
      List.replicate (ringSize (feedingOn 0x01 6 8 0x75 0x03).ring + 1) .consumer ++ [] := by decide

/-- A `FEED` in progress in the middle of a variable-class frame, one byte held: the invariant, and its next step. -/
theorem witness_inv : (feedingOn 0x01 6 8 0x75 0x03).Inv :=
  ⟨by constructor <;> decide, by constructor <;> decide, by unfold RingBuffer.HeldWritten; decide⟩
/-- With `witness_inv`: the hypotheses of StepKeepsTheInvariant, DeliveredResultsStand, LabelsAreUnobservable and
UnwrittenSlotsAreNeverRead; with `witness_StepKeepsTheArrays`: of StepKeepsTheArrays. -/
theorem witness_step : ∃ t, step (feedingOn 0x01 6 8 0x75 0x03) = .next t := ⟨_, rfl⟩
theorem witness_StepKeepsTheArrays : (feedingOn 0x01 6 8 0x75 0x03).SlotsOk := by constructor <;> decide
theorem witness_StaleThresholdAndOpcode :
    (feedingOn 0x60 0 8 0x75 0).asm.position = 0 ∧ ∃ t, step (feedingOn 0x60 0 8 0x75 0) = .next t := ⟨rfl, _, rfl⟩
theorem witness_RunsWithinRightsNeverStop :
    ({ State.reset with producerPort := [0x1FF], consumerPort := [0x400, 0x0FF] } : State).PortsLegal := by
  unfold State.PortsLegal; decide
theorem witness_ProducerTouchesOnlyTheRing :
    (producerPresents 0x162).schedule = .producer :: [] ∧ ∃ t, step (producerPresents 0x162) = .next t := ⟨rfl, _, rfl⟩
theorem witness_NonStoringOperationsFrame : ∀ i ∈ [Instr.ringReset, .ringPop, .ringSize, .asmReset],
    i = .ringReset ∨ i = .ringPop ∨ i = .ringSize ∨ i = .asmReset := by decide
/-- The hypothesis, and the two clauses that are conditional: a full buffer, and a step that notes a label. -/
theorem witness_ReassemblerFrame :
    encode .lead62 = .frameByte 0x62 ∧ 65 ≤ (inFrame 65 65 0x75 0x3C).asm.position.toNat ∧
    ((nextOf (exec .lead62 (inFrame 65 65 0x75 0x3C))).any fun t => t.events != []) = true ∧
    ((nextOf (exec .feed State.reset)).any fun t => t.events != []) = true := by decide
theorem witness_WritersOfEachElement :
    ((nextOf (exec (.ringPush 0x62) State.reset)).any fun t => t.ring.head != 0 && t.ring.slots != []) = true ∧
    ((nextOf (exec .ringPop (withRing 1 0 [(0, 0x62)]))).any fun t => t.ring.tail != 0 && t.delivered != []) = true ∧
    ((nextOf (exec .lead62 State.reset)).any fun t => t.asm.out != [] && t.asm != State.reset.asm) = true := by decide

end Sys2Proof.Tests
end

section
/-! PROOFS. R12: which bytes the three lists of leading bytes hold, and which bytes decode to a frame start. -/

namespace Sys2Proof.Machine

theorem mem_leadBytes_iff {b : Byte} :
    b ∈ leadBytes ↔ b = 0x62 ∨ b = 0x60 ∨ b = 0x67 ∨ b = 0x75 ∨ b = 0x71 ∨ b = 0x64 ∨ b = 0x68 ∨ b = 0x7B ∨ b = 0x7C := by
  simp only [leadBytes, List.mem_cons, List.not_mem_nil, or_false]

theorem mem_varLeadBytes_iff {b : Byte} : b ∈ varLeadBytes ↔ b = 0x75 ∨ b = 0x7C := by
  simp only [varLeadBytes, List.mem_cons, List.not_mem_nil, or_false]

/-- Every leading byte has its own arm of `decodeLead` (R76). -/
theorem exists_decodeLead_of_mem_leadBytes {b : Byte} (h : b ∈ leadBytes) : ∃ i, decodeLead b = .ok i := by
  rcases mem_leadBytes_iff.mp h with rfl | rfl | rfl | rfl | rfl | rfl | rfl | rfl | rfl <;> exact ⟨_, rfl⟩

/-- Conversely, what `decodeLead` answers is encoded in its byte, and only leading bytes encode an instruction. -/
theorem exists_decodeLead_iff {b : Byte} : (∃ i, decodeLead b = .ok i) ↔ b ∈ leadBytes :=
  ⟨fun ⟨_, hi⟩ => mem_leadBytes_of_encode (decodeLead_ok hi), exists_decodeLead_of_mem_leadBytes⟩

/-- Settles O9: one characterization for each of the three lists, and one for `decodeLead`. -/
theorem nineLeadingBytes : Obligations.NineLeadingBytes := fun _ =>
  ⟨mem_leadBytes_iff, mem_varLeadBytes_iff, mem_fixLeadBytes_iff, exists_decodeLead_iff⟩

end Sys2Proof.Machine
end

section
/-! PROOFS. R40: the ring right after the hardware reset. -/

namespace Sys2Proof.Machine

@[simp] theorem reset_ring_head : State.reset.ring.head = 0 := rfl
@[simp] theorem reset_ring_tail : State.reset.ring.tail = 0 := rfl

/-- With equal indices the size of R33 is `N mod N`. -/
theorem ringSize_reset : ringSize State.reset.ring = 0 := by
  simp [ringSize, ringSlots]

/-- Settles O1: both indices are 0, so the size is 0, and a ring of size 0 is empty (`ringEmpty_iff`). -/
theorem resetLeavesTheRingEmpty : Obligations.ResetLeavesTheRingEmpty :=
  ⟨reset_ring_head, reset_ring_tail, (ringEmpty_iff _).mpr ringSize_reset, ringSize_reset⟩

end Sys2Proof.Machine
end

section
/-! PROOFS. The ring operations, one equation each, and the frame and the runs they share (R100 to R103, R107). -/

namespace Sys2Proof.Machine

theorem exec_ringReset (s : State) : exec .ringReset s = .next { s with ring := clearRing s.ring } := rfl

theorem exec_ringSize (s : State) : exec .ringSize s = .next (deliver (sizeResult (ringSize s.ring)) s) := rfl

theorem ringFull_iff_toNat (r : RingBuffer) : ringFull r = true ↔ (r.head.toNat + 1) % 256 = r.tail.toNat := by
  rw [ringFull, beq_iff_eq, ← BitVec.toNat_inj, nextIndex_toNat]

theorem ringSize_eq_zero_iff (r : RingBuffer) : ringSize r = 0 ↔ r.head = r.tail := by
  rw [← ringEmpty_iff, ringEmpty, beq_iff_eq]

@[simp] theorem ringSize_clearRing (r : RingBuffer) : ringSize (clearRing r) = 0 :=
  (ringSize_eq_zero_iff _).mpr rfl

@[simp] theorem ringRead_clearRing (r : RingBuffer) (j : Nat) : ringRead (clearRing r) j = ringRead r j := rfl

/-- R107: a ring operation answers a next state, and it writes nothing but the ring, the results and the labels. -/
theorem exec_ringOp_frame {i : Instr} (h : isRingOp i = true) (s : State) :
    ∃ r results labels, exec i s = .next { s with ring := r, delivered := results, events := labels } := by
  cases i with
  | ringReset => exact ⟨_, _, _, exec_ringReset s⟩
  | ringPush b =>
    cases hf : ringFull s.ring with
    | true => exact ⟨_, _, _, exec_ringPush_of_full hf⟩
    | false => exact ⟨_, _, _, exec_ringPush_of_room hf⟩
  | ringPop =>
    cases hp : popByte s.ring with
    | none => exact ⟨_, _, _, exec_ringPop_of_empty hp⟩
    | some br => exact ⟨br.2, _, _, exec_ringPop_of_pop hp⟩
  | ringSize => exact ⟨_, _, _, exec_ringSize s⟩
  | _ => cases h

theorem runInstrs_cons_of_next {i : Instr} {s t : State} (h : exec i s = .next t) (is : List Instr) :
    runInstrs (i :: is) s = runInstrs is t := by
  simp only [runInstrs, h]

theorem runInstrs_append (xs ys : List Instr) (s : State) :
    runInstrs (xs ++ ys) s = (runInstrs xs s).bind (runInstrs ys) := by
  induction xs generalizing s with
  | nil => rfl
  | cons x xs ih =>
    simp only [List.cons_append, runInstrs]
    cases exec x s with
    | next t => exact ih t
    | fault _ => rfl
    | refused _ => rfl

/-- Settles O20: the frame of a ring operation leaves the assembly state and the busy flag as they were. -/
theorem ringOperationsNeverBlock : Obligations.RingOperationsNeverBlock := fun _ s h => by
  obtain ⟨r, results, labels, ht⟩ := exec_ringOp_frame h s
  exact ⟨_, ht, rfl, rfl⟩

/-- Settles O14: the reset writes the two indices only, and equal indices are size 0. -/
theorem ringResetEmptiesTheRing : Obligations.RingResetEmptiesTheRing := fun s =>
  ⟨_, exec_ringReset s, clearRing_head _, clearRing_tail _, ringSize_clearRing _, ringRead_clearRing _, rfl⟩

end Sys2Proof.Machine
end

section
/-! PROOFS. R101, R102, R105: what one push and one pop do, and how many bytes a run of pushes leaves in the ring. -/

namespace Sys2Proof.Machine

/-- Settles O15: the two branches of R101; a read after the push is `ringRead_push`. -/
theorem ringPushAppendsOrDrops : Obligations.RingPushAppendsOrDrops := fun b s => by
  split
  next hfull => exact exec_ringPush_of_full ((ringFull_iff_toNat _).mpr hfull)
  next hroom =>
    have hroom : ringFull s.ring = false := Bool.eq_false_iff.mpr (mt (ringFull_iff_toNat _).mp hroom)
    exact ⟨_, exec_ringPush_of_room hroom, nextIndex_toNat _, rfl, by simp, fun j hj => by simp [hj], rfl⟩

/-- The bits of a result of `RING_POP`: 0x100 is the `valid` bit (R82). -/
theorem popResult_some_eq (b : Byte) : popResult (some b) = .pop (0x100 + b.setWidth 9) := by
  revert b; decide

/-- Settles O16: the two branches of R102, told apart by `popByte`. -/
theorem ringPopTakesTheOldest : Obligations.RingPopTakesTheOldest := fun s => by
  split
  next hempty =>
    exact exec_ringPop_of_empty ((popByte_eq_none_iff _).mpr ((ringSize_eq_zero_iff _).mpr hempty))
  next hheld =>
    have hpop := popByte_of_nonempty (mt (ringSize_eq_zero_iff s.ring).mp hheld)
    refine ⟨_, exec_ringPop_of_pop hpop, nextIndex_toNat _, rfl, ?_, rfl⟩
    rw [deliver_delivered, popResult_some_eq]

/-- R101, R152: into a full ring every byte of a stream is dropped, each with its label. -/
theorem runInstrs_pushSeq_of_full (bytes : List Byte) (s : State) (h : ringFull s.ring = true) :
    runInstrs (pushSeq bytes) s = some { s with events := s.events ++ bytes.map .overflow } := by
  induction bytes generalizing s with
  | nil => simp [pushSeq, runInstrs]
  | cons b bytes ih =>
    have hstep : runInstrs (pushSeq (b :: bytes)) s = runInstrs (pushSeq bytes) (note (.overflow b) s) :=
      runInstrs_cons_of_next (exec_ringPush_of_full h) _
    rw [hstep, ih (note (.overflow b) s) h]
    simp [note]

theorem pushSeq_append (xs ys : List Byte) : pushSeq (xs ++ ys) = pushSeq xs ++ pushSeq ys := List.map_append

theorem heldBytes_of_empty {r : RingBuffer} (h : ringSize r = 0) : heldBytes r = [] :=
  (heldBytes_eq_nil_iff r).mpr ((popByte_eq_none_iff r).mpr h)

/-- Settles O23: the first 255 bytes find room (`runInstrs_pushSeq`); where more follow, those 255 have filled the ring
and the rest are dropped (`runInstrs_pushSeq_of_full`). -/
theorem capacityIs255 : Obligations.CapacityIs255 := fun bytes s hempty => by
  have htake : (bytes.take 255).length ≤ 255 := List.length_take_le ..
  obtain ⟨r, hrun, hheld, -⟩ := runInstrs_pushSeq (bytes.take 255) s (by omega)
  rw [heldBytes_of_empty hempty, List.nil_append] at hheld
  by_cases hlen : bytes.length ≤ 255
  · rw [List.take_of_length_le hlen] at hrun
    exact ⟨_, hrun, hheld, by simp [List.drop_eq_nil_of_le hlen]⟩
  · have hfull : ringFull r = true := by
      rw [ringFull_iff, ← heldBytes_length, hheld, List.length_take]
      omega
    have hrest := runInstrs_pushSeq_of_full (bytes.drop 255) { s with ring := r } hfull
    refine ⟨{ s with ring := r, events := s.events ++ (bytes.drop 255).map .overflow }, ?_, hheld, rfl⟩
    calc runInstrs (pushSeq bytes) s
        = runInstrs (pushSeq (bytes.take 255) ++ pushSeq (bytes.drop 255)) s := by
          rw [← pushSeq_append, List.take_append_drop]
      _ = _ := by rw [runInstrs_append, hrun, Option.bind_some, hrest]

end Sys2Proof.Machine
end

section
/-! PROOFS. R106: the size is the pushes that stored minus the pops that returned a byte. A run keeps the account of its
pushes and pops (`Accounted`): each instruction does, and the accounts of two runs in a row add up. -/

namespace Sys2Proof.Machine

/-- A `RING_PUSH`. -/
def isPush (i : Instr) : Bool := decide (∃ b : Byte, i = .ringPush b)

/-- A result of a `RING_POP` that returned a byte. -/
def isPoppedByte (d : Delivery) : Bool := decide (∃ b : Byte, d = popResult (some b))

@[simp] theorem isPush_ringPush (b : Byte) : isPush (.ringPush b) = true := by simp [isPush]
@[simp] theorem isPush_ringPop : isPush .ringPop = false := by simp [isPush]
@[simp] theorem isPush_ringSize : isPush .ringSize = false := by simp [isPush]

@[simp] theorem isPoppedByte_popResult_some (b : Byte) : isPoppedByte (popResult (some b)) = true :=
  decide_eq_true ⟨b, rfl⟩

@[simp] theorem isPoppedByte_popResult_none : isPoppedByte (popResult none) = false := by decide

@[simp] theorem isPoppedByte_sizeResult (n : Nat) : isPoppedByte (sizeResult n) = false := by
  simp [isPoppedByte, sizeResult, popResult]

/-- The account of a run of `ops` from `s` to `t`: the results and labels it adds, and for each push either a byte more in
the ring at the end, a label of a byte dropped, or a result with a byte. -/
def Accounted (ops : List Instr) (s t : State) : Prop :=
  ∃ results labels, t.delivered = s.delivered ++ results ∧ t.events = s.events ++ labels ∧
    ringSize t.ring + labels.length + results.countP isPoppedByte = ringSize s.ring + ops.countP isPush

theorem Accounted.nil (s : State) : Accounted [] s s := ⟨[], [], by simp, by simp, rfl⟩

theorem Accounted.cons {i : Instr} {ops : List Instr} {s t u : State} (h₁ : Accounted [i] s t)
    (h₂ : Accounted ops t u) : Accounted (i :: ops) s u := by
  obtain ⟨results₁, labels₁, hd₁, he₁, hsize₁⟩ := h₁
  obtain ⟨results₂, labels₂, hd₂, he₂, hsize₂⟩ := h₂
  refine ⟨results₁ ++ results₂, labels₁ ++ labels₂, by simp [hd₂, hd₁], by simp [he₂, he₁], ?_⟩
  rw [List.length_append, List.countP_append, ← List.singleton_append, List.countP_append]
  omega

/-- One push, pop or size keeps the account. -/
theorem exec_accounted {i : Instr} (h : isRingOp i = true) (hreset : i ≠ .ringReset) (s : State) :
    ∃ t, exec i s = .next t ∧ Accounted [i] s t := by
  cases i with
  | ringReset => exact absurd rfl hreset
  | ringPush b =>
    cases hf : ringFull s.ring with
    | true => exact ⟨_, exec_ringPush_of_full hf, [], [.overflow b], by simp, rfl, by simp⟩
    | false => exact ⟨_, exec_ringPush_of_room hf, [], [], by simp, by simp, by simp [ringSize_push b hf]⟩
  | ringPop =>
    cases hp : popByte s.ring with
    | none => exact ⟨_, exec_ringPop_of_empty hp, [popResult none], [], rfl, by simp, by simp⟩
    | some br =>
      obtain ⟨hheld, -, hr⟩ := popByte_eq_some hp
      exact ⟨_, exec_ringPop_of_pop hp, [popResult (some br.1)], [], rfl, by simp, by simp [hr, ringSize_pop hheld]⟩
  | ringSize => exact ⟨_, exec_ringSize s, [sizeResult (ringSize s.ring)], [], rfl, by simp, by simp⟩
  | _ => cases h

/-- Any run of pushes, pops and sizes, from any state, goes through and keeps the account. -/
theorem runInstrs_accounted (ops : List Instr) (s : State) (h : ∀ i ∈ ops, isRingOp i = true ∧ i ≠ .ringReset) :
    ∃ t, runInstrs ops s = some t ∧ Accounted ops s t := by
  induction ops generalizing s with
  | nil => exact ⟨s, rfl, Accounted.nil s⟩
  | cons i ops ih =>
    obtain ⟨⟨hop, hreset⟩, hops⟩ := List.forall_mem_cons.mp h
    obtain ⟨t, hexec, hfirst⟩ := exec_accounted hop hreset s
    obtain ⟨u, hrun, hrest⟩ := ih t hops
    exact ⟨u, by rw [runInstrs_cons_of_next hexec, hrun], hfirst.cons hrest⟩

/-- Settles O22: after `RING_RESET` the account starts from size 0. -/
theorem sizeLaw : Obligations.SizeLaw := fun ops s h => by
  obtain ⟨t, hrun, results, labels, hd, he, hsize⟩ := runInstrs_accounted ops { s with ring := clearRing s.ring } h
  rw [ringSize_clearRing, Nat.zero_add] at hsize
  exact ⟨t, results, labels, (runInstrs_cons_of_next (exec_ringReset s) ops).trans hrun, hd, he, hsize,
    Nat.le_of_lt_succ (ringSize_lt t.ring), _, exec_ringSize t, rfl⟩

end Sys2Proof.Machine
end

section
/-! PROOFS. R130, R137: what a whole `FEED` with no push inside it does. `FeedRun` states it on the bytes taken; it is
followed through the iterations, one lemma for each way an iteration can go. -/

namespace Sys2Proof.Machine

/-- Any result of a `STEP` survives the port format of R82: `len = 0` stands for no frame, and no frame has length 0. -/
theorem deliveredFrame_feedResult_stepByte (a : Assembly) (b : Byte) :
    deliveredFrame (feedResult (stepByte a b).frame) = (stepByte a b).frame := by
  cases h : (stepByte a b).frame with
  | none => rfl
  | some f =>
    obtain ⟨hlen, hmax, -, -⟩ := stepByte_frame h
    exact deliveredFrame_feedResult (by omega) hmax

/-- A `FEED` from `s` to `t` that takes `bytes` off the ring and delivers `result`: the bytes complete exactly that, no
frame completes before the last of them, and without a frame the ring is drained. -/
structure FeedRun (s t : State) (bytes : List Byte) (result : Option (List Byte)) : Prop where
  stopped : t.feeding = false
  delivered : t.delivered = s.delivered ++ [feedResult result]
  held : heldBytes s.ring = bytes ++ heldBytes t.ring
  asm : t.asm = (absorb s.asm bytes).asm
  frames : (absorb s.asm bytes).frames = result.toList
  notBefore : (absorb s.asm bytes.dropLast).frames = []
  drained : result = none → heldBytes t.ring = []
  readable : deliveredFrame (feedResult result) = result

/-- An iteration that finds the ring empty ends the `FEED` with `none`. -/
theorem FeedRun.of_empty {s : State} (h : popByte s.ring = none) : FeedRun s (feedIteration s) [] none := by
  have hnil : heldBytes s.ring = [] := (heldBytes_eq_nil_iff _).mpr h
  rw [feedIteration_of_empty h]
  exact {
    stopped := rfl
    delivered := rfl
    held := rfl
    asm := rfl
    frames := rfl
    notBefore := rfl
    drained := fun _ => hnil
    readable := rfl }

/-- An iteration whose byte completes a frame ends the `FEED` with it. -/
theorem FeedRun.of_frame {s : State} {b : Byte} {r : RingBuffer} {f : List Byte} (h : popByte s.ring = some (b, r))
    (hf : (stepByte s.asm b).frame = some f) : FeedRun s (feedIteration s) [b] (some f) := by
  rw [feedIteration_of_pop h]
  exact {
    stopped := by simp [hf]
    delivered := by simp [hf]
    held := by rw [heldBytes_pop h, consumeByte_ring]; rfl
    asm := by rw [consumeByte_asm]; rfl
    frames := by simp [absorb, hf]
    notBefore := rfl
    drained := nofun
    readable := by rw [← hf, deliveredFrame_feedResult_stepByte] }

/-- A byte that completes no frame comes before the bytes that the rest of the `FEED` takes. -/
theorem FeedRun.of_no_frame {s t : State} {b : Byte} {r : RingBuffer} {bytes : List Byte}
    {result : Option (List Byte)} (h : popByte s.ring = some (b, r)) (hf : (stepByte s.asm b).frame = none)
    (hrest : FeedRun (feedIteration s) t bytes result) : FeedRun s t (b :: bytes) result := by
  rw [feedIteration_of_pop h] at hrest
  obtain ⟨hstopped, hdelivered, hheld, hasm, hframes, hnotBefore, hdrained, hreadable⟩ := hrest
  have habsorb (xs : List Byte) : (absorb s.asm (b :: xs)).frames = (absorb (stepByte s.asm b).asm xs).frames := by
    simp [absorb, hf]
  rw [consumeByte_ring] at hheld
  rw [consumeByte_asm] at hasm hframes hnotBefore
  exact {
    stopped := hstopped
    delivered := by simpa [hf] using hdelivered
    held := by rw [heldBytes_pop h, hheld, List.cons_append]
    asm := hasm
    frames := by rw [habsorb, hframes]
    notBefore := by
      cases bytes with
      | nil => rfl
      | cons x xs => rw [List.dropLast_cons_cons, habsorb, hnotBefore]
    drained := hdrained
    readable := hreadable }

theorem feedLoop_succ_of_stopped (n : Nat) {s : State} (h : (feedIteration s).feeding = false) :
    feedLoop (n + 1) s = feedIteration s := by
  simp [feedLoop, h]

theorem feedLoop_succ_of_feeding (n : Nat) {s : State} (h : (feedIteration s).feeding = true) :
    feedLoop (n + 1) s = feedLoop n (feedIteration s) := by
  simp [feedLoop, h]

theorem ringSize_of_popByte {r r' : RingBuffer} {b : Byte} (h : popByte r = some (b, r')) :
    ringSize r = ringSize r' + 1 := by
  simpa using congrArg List.length (heldBytes_pop h)

/-- More iterations than the ring holds bytes bring any `FEED` to its end. -/
theorem exists_feedRun_feedLoop (n : Nat) (s : State) (h : ringSize s.ring < n) :
    ∃ bytes result, FeedRun s (feedLoop n s) bytes result := by
  induction n generalizing s with
  | zero => omega
  | succ n ih =>
    cases hp : popByte s.ring with
    | none =>
      have hend := FeedRun.of_empty hp
      exact ⟨_, _, by rwa [feedLoop_succ_of_stopped n hend.stopped]⟩
    | some br =>
      obtain ⟨b, r⟩ := br
      cases hf : (stepByte s.asm b).frame with
      | some f =>
        have hend := FeedRun.of_frame hp hf
        exact ⟨_, _, by rwa [feedLoop_succ_of_stopped n hend.stopped]⟩
      | none =>
        have hgoes : (feedIteration s).feeding = true := by simp [feedIteration_of_pop hp, hf]
        have hsize : ringSize (feedIteration s).ring < n := by
          rw [ringSize_of_popByte hp] at h
          simpa [feedIteration_of_pop hp] using h
        obtain ⟨bytes, result, hrest⟩ := ih _ hsize
        rw [feedLoop_succ_of_feeding n hgoes]
        exact ⟨_, _, hrest.of_no_frame hp hf⟩

theorem exists_feedRun_feedWhole (s : State) : ∃ bytes result, FeedRun s (feedWhole s) bytes result :=
  exists_feedRun_feedLoop _ s (Nat.lt_add_one _)

/-- Settles O45: `k` is the number of bytes that the `FEED` takes (`FeedRun`), the bytes are the first `k` held. -/
theorem oneFramePerFeed : Obligations.OneFramePerFeed := fun s => by
  obtain ⟨bytes, result, hrun⟩ := exists_feedRun_feedWhole s
  have hsize : ringSize s.ring = bytes.length + (heldBytes (feedWhole s).ring).length := by
    rw [← heldBytes_length, hrun.held, List.length_append]
  have htake : (heldBytes s.ring).take bytes.length = bytes := by rw [hrun.held, List.take_left]
  have htakePred : (heldBytes s.ring).take (bytes.length - 1) = bytes.dropLast := by
    rw [hrun.held, List.take_append_of_le_length (Nat.sub_le ..), List.dropLast_eq_take]
  refine ⟨bytes.length, by omega, feedResult result, hrun.delivered, hrun.stopped, ?_, ?_, ?_, ?_, ?_⟩
  · rw [hrun.held, List.drop_left]
  · rw [htake, hrun.asm]
  · rw [htake, hrun.frames, hrun.readable]
  · rw [hrun.readable]
    rintro rfl
    rw [hrun.drained rfl] at hsize
    exact ⟨rfl, hsize.symm⟩
  · rw [hrun.readable, htakePred]
    refine fun hsome => ⟨List.length_pos_iff.mpr fun hnil => hsome ?_, hrun.notBefore⟩
    have hframes := hrun.frames
    rw [hnil] at hframes
    exact Option.toList_eq_nil_iff.mp hframes.symm

end Sys2Proof.Machine
end

section
/-! PROOFS. R124, R125: the completion test after a store changes nothing but `position`. -/

namespace Sys2Proof.Machine

@[simp] theorem completionClause_leadingByte (a : Assembly) :
    (completionClause a).asm.leadingByte = a.leadingByte := by
  unfold completionClause; split <;> rfl

@[simp] theorem completionClause_expectedLength (a : Assembly) :
    (completionClause a).asm.expectedLength = a.expectedLength := by
  unfold completionClause; split <;> rfl

@[simp] theorem completionClause_label (a : Assembly) : (completionClause a).label = none := by
  unfold completionClause; split <;> rfl

@[simp] theorem outRead_completionClause (a : Assembly) (j : Nat) :
    outRead (completionClause a).asm j = outRead a j := by
  unfold completionClause; split <;> rfl

/-- `position` after the test, by whether a frame completed. -/
theorem completionClause_position (a : Assembly) :
    (completionClause a).asm.position = if (completionClause a).frame.isNone then a.position else 0 := by
  unfold completionClause; split <;> rfl

/-- Settles O29: the iteration is a store followed by the completion test (`stepByte_stored`). -/
theorem byteIsStored : Obligations.ByteIsStored := fun s b r hpop hlead hpos => by
  have hstep : stepByte s.asm b = completionClause (stored s.asm b) := stepByte_stored hlead hpos
  refine ⟨_, by rw [exec_feed, feedIteration_of_pop hpop], by simp, by simp [hstep], ?_, ?_, ?_, ?_, ?_⟩
  · simp [hstep, outRead_stored]
  · intro j hj
    simp [hstep, outRead_stored, hj]
  · intro hframe
    simp only [consumeByte_asm, hstep, completionClause_leadingByte, completionClause_expectedLength]
    rw [stored_leadingByte, stored_expectedLength, if_neg hframe, if_neg hframe]
    exact ⟨rfl, fun htap => if_neg fun h => htap ⟨BitVec.eq_of_toNat_eq h.1, h.2⟩⟩
  · intro hgoes
    simp only [consumeByte_feeding, hstep] at hgoes
    have hnone := Option.isNone_iff_eq_none.mp hgoes
    simp [hstep, completionClause_position, hnone, stored_position hpos]
  · intro hends
    simp only [consumeByte_feeding, hstep] at hends
    simp [hstep, completionClause_position, hends]

end Sys2Proof.Machine
end

section
/-! PROOFS. R154: `FEED` on an empty ring. -/

namespace Sys2Proof.Machine

/-- Settles O32: with equal indices the ring's size is 0 (`ringSize_eq_zero_iff`), so the iteration pops no byte. -/
theorem starvedFeedReturnsNone : Obligations.StarvedFeedReturnsNone := fun s hempty => by
  have hnone : popByte s.ring = none := (popByte_eq_none_iff _).mpr ((ringSize_eq_zero_iff _).mpr hempty)
  rw [exec_feed, feedIteration_of_empty hnone]

end Sys2Proof.Machine
end

section
/-! PROOFS. R80 to R84: the two fields of a command word, which words decode to which operations, and which a port
accepts. -/

namespace Sys2Proof

@[simp] theorem opField_commandWord (op : BitVec 3) (data : Byte) : opField (commandWord op data) = op :=
  BitVec.extractLsb'_append_eq_left

@[simp] theorem dataField_commandWord (op : BitVec 3) (data : Byte) : dataField (commandWord op data) = data :=
  BitVec.extractLsb'_append_eq_right

/-- A command word is its operation code followed by its data byte (R81). -/
theorem commandWord_fields (w : CmdWord) : commandWord (opField w) (dataField w) = w := by
  unfold commandWord opField dataField
  rw [BitVec.extractLsb'_append_extractLsb'_eq_extractLsb' (by omega)]
  simp

/-- Everything a command word can decode to, by its operation code. -/
theorem decodeCommand_cases (w : CmdWord) :
    ((opField w).toNat = 0 ∧ decodeCommand w = .ringReset) ∨
    ((opField w).toNat = 1 ∧ decodeCommand w = .ringPush (dataField w)) ∨
    ((opField w).toNat = 2 ∧ decodeCommand w = .ringPop) ∨
    ((opField w).toNat = 3 ∧ decodeCommand w = .ringSize) ∨
    ((opField w).toNat = 4 ∧ decodeCommand w = .feed) ∨
    ((opField w).toNat = 5 ∧ decodeCommand w = .asmReset) ∨
    (6 ≤ (opField w).toNat ∧ decodeCommand w = .reservedOp (w.extractLsb' 0 9)) := by
  have hlt := (opField w).isLt
  unfold decodeCommand
  generalize (opField w).toNat = op at hlt ⊢
  interval_cases op <;> simp

theorem decodeCommand_ringPush (b : Byte) : decodeCommand (commandWord 1 b) = .ringPush b := by
  simp [decodeCommand]

/-- The two leading ones of a reserved word make its operation code 6 or 7 (R84). -/
theorem decodeCommand_reserved (low : BitVec 9) : decodeCommand ((3#2 : BitVec 2) ++ low) = .reservedOp low := by
  have hword : ((3#2 : BitVec 2) ++ low).toNat = 3 * 2 ^ 9 + low.toNat := by
    rw [BitVec.toNat_append, ← Nat.shiftLeft_add_eq_or_of_lt low.isLt, Nat.shiftLeft_eq]
    rfl
  have hop : 6 ≤ (opField ((3#2 : BitVec 2) ++ low)).toNat := by
    have hlow := low.isLt
    rw [opField, BitVec.extractLsb'_toNat, hword, Nat.shiftRight_eq_div_pow]
    omega
  have hlow : ((3#2 : BitVec 2) ++ low).extractLsb' 0 9 = low := BitVec.extractLsb'_append_eq_right
  rcases decodeCommand_cases ((3#2 : BitVec 2) ++ low) with ⟨h, -⟩ | ⟨h, -⟩ | ⟨h, -⟩ | ⟨h, -⟩ | ⟨h, -⟩ | ⟨h, -⟩ | ⟨-, h⟩
  iterate 6 omega
  rw [h, hlow]

/-- Decoding is a left inverse of encoding (R81, R83, R76). -/
theorem decode_encode (i : Instr) : decode (encode i) = .ok i := by
  cases i with
  | ringPush b => exact congrArg Except.ok (decodeCommand_ringPush b)
  | reservedOp low => exact congrArg Except.ok (decodeCommand_reserved low)
  | _ => rfl

theorem wellFormed_of_acceptedOn {i : Instr} {p : Port} (h : i.acceptedOn p = true) : i.wellFormed = true := by
  cases p <;> cases i <;> first | rfl | cases h

/-- An instruction that some port accepts is encoded in a command word. -/
theorem encode_of_acceptedOn {i : Instr} {p : Port} (h : i.acceptedOn p = true) : ∃ w, encode i = .command w := by
  cases p <;> cases i <;> first | exact ⟨_, rfl⟩ | cases h

/-- A port takes a word that it accepts as what the word decodes to. -/
theorem decodeCommandAt_of_acceptedOn {p : Port} {w : CmdWord} (h : (decodeCommand w).acceptedOn p = true) :
    decodeCommandAt p w = .ok (decodeCommand w) := by
  simp [decodeCommandAt, h]

/-- Settles O6: what `decode_encode` says of the word gives both clauses on the ports. -/
theorem decodeEncodeAgree : Obligations.DecodeEncodeAgree := fun i => by
  refine ⟨decode_encode i, fun p hp => ?_⟩
  obtain ⟨w, hw⟩ := encode_of_acceptedOn hp
  have hi : decodeCommand w = i := by
    have h := decode_encode i
    rw [hw] at h
    exact Except.ok.inj h
  subst hi
  exact ⟨w, hw, rfl, decodeCommandAt_of_acceptedOn hp⟩

end Sys2Proof
end

section
/-! PROOFS. R81, R84, R76: the rows of the opcode table, and sample words. -/

namespace Sys2Proof

/-- The mask 0x700 keeps the operation code and no data bit. -/
theorem commandWord_and_opMask (op : BitVec 3) (data : Byte) : commandWord op data &&& 0x700 = commandWord op 0 := by
  have hmask : (0x700 : CmdWord) = (7 : BitVec 3) ++ (0 : Byte) := rfl
  have hop : op &&& 7 = op := BitVec.and_allOnes
  have hdata : data &&& 0 = 0 := BitVec.and_zero
  rw [commandWord, hmask, BitVec.and_append, hop, hdata, commandWord]

/-- The mask 0x600 of the reserved row lies inside 0x700. -/
theorem commandWord_and_reservedMask (op : BitVec 3) (data : Byte) :
    commandWord op data &&& 0x600 = commandWord op 0 &&& 0x600 := by
  rw [← commandWord_and_opMask op data, BitVec.and_assoc]
  rfl

theorem maskedBy_commandWord (i : Instr) (op : BitVec 3) (data : Byte) :
    maskedBy i (.command (commandWord op data)) = maskedBy i (.command (commandWord op 0)) := by
  simp only [maskedBy, commandWord_and_opMask, commandWord_and_reservedMask op data]

theorem rowMatch_decodeCommand (op : BitVec 3) (data : Byte) :
    rowMatch (decodeCommand (commandWord op data)) = rowMatch (decodeCommand (commandWord op 0)) := by
  simp only [decodeCommand, opField_commandWord]
  split <;> rfl

/-- A row's mask does not depend on the operand either. -/
theorem maskedBy_decodeCommand (op : BitVec 3) (data : Byte) (u : CodeUnit) :
    maskedBy (decodeCommand (commandWord op data)) u = maskedBy (decodeCommand (commandWord op 0)) u := by
  simp only [decodeCommand, opField_commandWord]
  split <;> rfl

/-- The eight operation codes, each in the row it decodes to. -/
theorem opCode_meets_its_row (op : BitVec 3) :
    maskedBy (decodeCommand (commandWord op 0)) (.command (commandWord op 0)) =
      rowMatch (decodeCommand (commandWord op 0)) := by
  revert op; decide

/-- The eight operation codes, each in no other row. -/
theorem opCode_meets_no_other_row (op : BitVec 3) (i : Instr)
    (h : maskedBy i (.command (commandWord op 0)) = rowMatch i) :
    rowMatch i = rowMatch (decodeCommand (commandWord op 0)) := by
  revert h
  cases i <;>
    · simp only [maskedBy, rowMatch, Instr.wellFormed, if_true, Bool.false_eq_true, if_false]
      revert op
      decide

/-- Settles O7: neither masks nor matches see the data bits, so the eight operation codes decide. -/
theorem everyWordHasOneRow : Obligations.EveryWordHasOneRow := by
  refine ⟨fun w => ?_, fun b => ?_⟩
  · rw [← commandWord_fields w]
    generalize opField w = op
    generalize dataField w = data
    rw [rowMatch_decodeCommand op data]
    refine ⟨?_, fun i hi => opCode_meets_no_other_row op i ((maskedBy_commandWord i op data).symm.trans hi)⟩
    rw [maskedBy_decodeCommand, maskedBy_commandWord, opCode_meets_its_row]
  · have hword : 0x100 + b.setWidth 11 = commandWord 1 b := by
      revert b; decide
    rw [hword, decodeCommand_ringPush]

/-- Settles O8: each word and each byte has its own arm of the decoder. -/
theorem sampleWordsDecode : Obligations.SampleWordsDecode :=
  ⟨rfl, rfl, rfl, rfl, rfl, rfl, rfl, rfl, rfl, rfl, rfl, rfl⟩

end Sys2Proof
end

section
/-! PROOFS. R59, R80, R84, R172, R173: one equation of `step` for each kind of turn, and which words it refuses. -/

namespace Sys2Proof.Machine

/-! ### A turn that runs no command -/

theorem step_of_no_turn {s : State} (h : s.schedule = []) : step s = .next s := by
  simp only [step, fetch, h]

theorem step_of_idle_producer {s : State} {rest : List Turn} (h : s.schedule = .producer :: rest)
    (hport : s.producerPort = []) : step s = .next { s with schedule := rest } := by
  simp only [step, fetch, fetchProducer, h, hport]

theorem step_of_idle_consumer {s : State} {rest : List Turn} (h : s.schedule = .consumer :: rest)
    (hport : s.consumerPort = []) (hfree : s.feeding = false) : step s = .next { s with schedule := rest } := by
  simp [step, fetch, fetchConsumer, h, hport, hfree]

theorem step_of_hardwareReset {s : State} {p c : Bool} {rest : List Turn} (h : s.schedule = .hardwareReset p c :: rest)
    (hlegal : resetRefusal p c s = none) : step s = .next (hardwareReset p c { s with schedule := rest }) := by
  have hlegal' : resetRefusal p c { s with schedule := rest } = none := hlegal
  simp only [step, fetch, fetchReset, h, hlegal']

theorem step_of_refused_hardwareReset {s : State} {p c : Bool} {rest : List Turn} {r : Refusal}
    (h : s.schedule = .hardwareReset p c :: rest) (hr : resetRefusal p c s = some r) : step s = .refused r := by
  have hr' : resetRefusal p c { s with schedule := rest } = some r := hr
  simp only [step, fetch, fetchReset, h, hr']

/-! ### A turn that takes a word, or goes on with a `FEED` -/

/-- What running a fetched instruction gives. -/
def Fetched.outcome : Fetched → Host.Outcome State Fault Refusal
  | .run i s => exec i s
  | .settled s => .next s
  | .refuse r => .refused r

theorem step_eq_outcome (s : State) : step s = (fetch s).outcome := by
  unfold step
  cases fetch s <;> rfl

theorem outcome_fetchFeed (s : State) : (fetchFeed s).outcome = exec .feed s := by
  obtain ⟨i, t, hfetch, hexec⟩ := fetchFeed_run s
  rw [hfetch]
  exact hexec

theorem step_of_busy_consumer {s : State} {rest : List Turn} (h : s.schedule = .consumer :: rest)
    (hbusy : s.feeding = true) : step s = exec .feed { s with schedule := rest } := by
  have hfetch : fetch s = fetchFeed { s with schedule := rest } := by simp [fetch, fetchConsumer, h, hbusy]
  rw [step_eq_outcome, hfetch, outcome_fetchFeed]

theorem step_of_producer_word {s : State} {w : CmdWord} {ws : List CmdWord} {rest : List Turn}
    (h : s.schedule = .producer :: rest) (hport : s.producerPort = w :: ws) :
    step s = (fetchCommand .producer w { s with schedule := rest, producerPort := ws }).outcome := by
  rw [step_eq_outcome]
  simp only [fetch, fetchProducer, h, hport]

theorem step_of_consumer_word {s : State} {w : CmdWord} {ws : List CmdWord} {rest : List Turn}
    (h : s.schedule = .consumer :: rest) (hfree : s.feeding = false) (hport : s.consumerPort = w :: ws) :
    step s = (fetchCommand .consumer w { s with schedule := rest, consumerPort := ws }).outcome := by
  rw [step_eq_outcome]
  simp [fetch, fetchConsumer, h, hport, hfree]

/-- A word that its port takes runs as the operation it decodes to. -/
theorem outcome_of_taken {p : Port} {w : CmdWord} {i : Instr} (h : decodeCommandAt p w = .ok i) (s : State) :
    (fetchCommand p w s).outcome = exec i s := by
  rcases fetchCommand_cases p w s with ⟨hw, -⟩ | ⟨hw, j, t, hfetch, hexec⟩ <;> rw [hw] at h <;> cases h
  rw [hfetch]
  exact hexec

theorem exec_of_illFormed {i : Instr} (h : i.wellFormed = false) (s : State) :
    exec i s = .refused .reservedCommand := by
  cases i with
  | reservedOp low => rfl
  | _ => cases h

/-- A word that its port refuses is refused when the port takes it: as a reserved word by its meaning, as a word of the
other port by the fetch. -/
theorem outcome_of_refusalOn {p : Port} {w : CmdWord} {r : Refusal} (h : refusalOn p w = some r) (s : State) :
    (fetchCommand p w s).outcome = .refused r := by
  unfold refusalOn at h
  split at h
  next hd =>
    cases h
    rw [fetchCommand, hd]
    rfl
  next i hd =>
    rw [outcome_of_taken hd]
    split at h
    · cases h
    · cases h
      exact exec_of_illFormed (Bool.eq_false_iff.mpr ‹_›) s

/-- Settles O4: the three turns on which the block finds nothing to do. -/
theorem blockWaitsForCommands : Obligations.BlockWaitsForCommands := fun _ =>
  ⟨step_of_no_turn, fun _ => step_of_idle_producer, fun _ => step_of_idle_consumer⟩

/-- Settles O11: each port's word is fetched, and a word that is taken runs (`outcome_of_taken`). -/
theorem stepRunsTheCommandOnThePort : Obligations.StepRunsTheCommandOnThePort := fun _ _ _ _ _ _ =>
  ⟨fun h hport hd => (step_of_producer_word h hport).trans (outcome_of_taken hd _),
    fun h hfree hport hd => (step_of_consumer_word h hfree hport).trans (outcome_of_taken hd _)⟩

/-- Settles O12: a busy port goes on with its `FEED`, a free one takes the word. -/
theorem stepMakesOneFeedIteration : Obligations.StepMakesOneFeedIteration := fun _ _ h =>
  ⟨step_of_busy_consumer h,
    fun _ _ hfree hport hd => (step_of_consumer_word h hfree hport).trans (outcome_of_taken hd _)⟩

/-- Settles O13: the row of the byte popped is the iteration of `FEED` on that byte (`exec_lead_eq_exec_feed`). -/
theorem stepRunsTheLeadingByte : Obligations.StepRunsTheLeadingByte := fun s rest _ _ _ h hbusy _ hpop hlead =>
  (step_of_busy_consumer h hbusy).trans
    (exec_lead_eq_exec_feed (s := { s with schedule := rest }) hpop hlead).symm

/-- Settles O5: both resets write the same values; the hardware reset's own is `hardwareReset`. -/
theorem hardwareResetIsBothResets : Obligations.HardwareResetIsBothResets := fun s p c _ h hp hc =>
  ⟨_, _, step_of_hardwareReset h ((resetRefusal_eq_none_iff p c s).mpr ⟨hp, hc⟩), rfl, rfl, rfl, rfl, rfl, rfl,
    (ringSize_eq_zero_iff _).mpr rfl, rfl, rfl, rfl, rfl, rfl, rfl, rfl, rfl, rfl⟩

end Sys2Proof.Machine
end

section
/-! PROOFS. R84: the operation codes that each port refuses, and when. -/

namespace Sys2Proof.Machine

/-- Operation codes 6 and 7 are the reserved words, on either port. -/
theorem refusalOn_of_reserved_code {w : CmdWord} (p : Port) (h : 6 ≤ (opField w).toNat) :
    refusalOn p w = some .reservedCommand := by
  rcases decodeCommand_cases w with ⟨hop, -⟩ | ⟨hop, -⟩ | ⟨hop, -⟩ | ⟨hop, -⟩ | ⟨hop, -⟩ | ⟨hop, -⟩ | ⟨-, hd⟩
  iterate 6 omega
  exact refusalOn_of_reserved hd

/-- The producer port takes `RING_PUSH` alone. -/
theorem refusalOn_producer_of_code {w : CmdWord} (h : (opField w).toNat ≤ 5) (hpush : (opField w).toNat ≠ 1) :
    refusalOn .producer w = some .wrongPort := by
  rcases decodeCommand_cases w with
    ⟨-, hd⟩ | ⟨hop, -⟩ | ⟨-, hd⟩ | ⟨-, hd⟩ | ⟨-, hd⟩ | ⟨-, hd⟩ | ⟨hop, -⟩
  case inr.inl => exact absurd hop hpush
  case inr.inr.inr.inr.inr.inr => omega
  all_goals exact refusalOn_of_wrongPort (by rw [hd]; rfl) (by rw [hd]; rfl)

/-- The consumer port does not take `RING_PUSH`. -/
theorem refusalOn_consumer_of_code {w : CmdWord} (h : (opField w).toNat = 1) :
    refusalOn .consumer w = some .wrongPort := by
  have hd : decodeCommand w = .ringPush (dataField w) := by simp only [decodeCommand, h]
  exact refusalOn_of_wrongPort (by rw [hd]; rfl) (by rw [hd]; rfl)

theorem step_refuses_on_producer {s : State} {w : CmdWord} {ws : List CmdWord} {rest : List Turn} {r : Refusal}
    (h : s.schedule = .producer :: rest) (hport : s.producerPort = w :: ws) (hr : refusalOn .producer w = some r) :
    step s = .refused r :=
  (step_of_producer_word h hport).trans (outcome_of_refusalOn hr _)

theorem step_refuses_on_consumer {s : State} {w : CmdWord} {ws : List CmdWord} {rest : List Turn} {r : Refusal}
    (h : s.schedule = .consumer :: rest) (hfree : s.feeding = false) (hport : s.consumerPort = w :: ws)
    (hr : refusalOn .consumer w = some r) : step s = .refused r :=
  (step_of_consumer_word h hfree hport).trans (outcome_of_refusalOn hr _)

/-- At the instant of a hardware reset the producer's word is looked at first. -/
theorem reset_refuses_on_producer {s : State} {c : Bool} {w : CmdWord} {ws : List CmdWord} {rest : List Turn}
    {r : Refusal} (h : s.schedule = .hardwareReset true c :: rest) (hport : s.producerPort = w :: ws)
    (hr : refusalOn .producer w = some r) : step s = .refused r :=
  step_of_refused_hardwareReset h (by simp [resetRefusal, presentedRefusal, hport, hr])

/-- The consumer's word is looked at when the producer presents none or one that its port takes. -/
theorem reset_refuses_on_consumer {s : State} {p : Bool} {w : CmdWord} {ws : List CmdWord} {rest : List Turn}
    {r : Refusal} (h : s.schedule = .hardwareReset p true :: rest) (hfree : s.feeding = false)
    (hport : s.consumerPort = w :: ws)
    (hproducer : p = true → ∀ v ∈ s.producerPort.head?, (decodeCommand v).acceptedOn .producer = true)
    (hr : refusalOn .consumer w = some r) : step s = .refused r := by
  have hnone := (presentedRefusal_eq_none_iff .producer p s.producerPort).mpr hproducer
  refine step_of_refused_hardwareReset h ?_
  rw [resetRefusal, hnone]
  simp [presentedRefusal, hport, hfree, hr]

/-- Settles O10: which codes a port refuses (`refusalOn`), and that a step refuses such a word in each of the four
situations. -/
theorem reservedAndWrongPortWordsAreRefused : Obligations.ReservedAndWrongPortWordsAreRefused :=
  ⟨fun _ _ => rfl,
    fun _ _ _ _ h hport =>
      ⟨fun hop => step_refuses_on_producer h hport (refusalOn_of_reserved_code _ hop),
        fun hop hpush => step_refuses_on_producer h hport (refusalOn_producer_of_code hop hpush)⟩,
    fun _ _ _ _ h hfree hport =>
      ⟨fun hop => step_refuses_on_consumer h hfree hport (refusalOn_of_reserved_code _ hop),
        fun hop => step_refuses_on_consumer h hfree hport (refusalOn_consumer_of_code hop)⟩,
    fun _ _ _ _ _ h hport =>
      ⟨fun hop => reset_refuses_on_producer h hport (refusalOn_of_reserved_code _ hop),
        fun hop hpush => reset_refuses_on_producer h hport (refusalOn_producer_of_code hop hpush)⟩,
    fun _ _ _ _ _ h hfree hport hproducer =>
      ⟨fun hop => reset_refuses_on_consumer h hfree hport hproducer (refusalOn_of_reserved_code _ hop),
        fun hop => reset_refuses_on_consumer h hfree hport hproducer (refusalOn_consumer_of_code hop)⟩⟩

end Sys2Proof.Machine
end

section
/-! PROOFS. R31 to R33, R60, R61, R103, R104: index arithmetic in 8 bits, and a push beside a pop. -/

namespace Sys2Proof.Machine

/-- R103 (e), R104: the size is the 8-bit difference of the indices. -/
theorem ringSize_eq_sub (r : RingBuffer) : ringSize r = (r.head - r.tail).toNat := by
  have htail := r.tail.isLt
  rw [BitVec.toNat_sub, ringSize, ringSlots]
  omega

/-- Settles O17: the result of `exec_ringSize` is R103's formula, which `ringSize_eq_sub` gives in 8 bits. -/
theorem ringSizeReturnsTheCount : Obligations.RingSizeReturnsTheCount := fun s => by
  refine ⟨exec_ringSize s, ?_⟩
  calc BitVec.ofNat 8 ((s.ring.head.toNat + 256 - s.ring.tail.toNat) % 256)
      = BitVec.ofNat 8 (s.ring.head - s.ring.tail).toNat := congrArg _ (ringSize_eq_sub s.ring)
    _ = s.ring.head - s.ring.tail := BitVec.ofNat_toNat ..

/-- Settles O19: `ringFull` compares the next index, which is `head + 1` in 8 bits. -/
theorem indexArithmeticIsEightBit : Obligations.IndexArithmeticIsEightBit := fun r =>
  ⟨nextIndex_eq r.head, ringSize_eq_sub r, (ringEmpty_iff r).trans (ringSize_eq_zero_iff r),
    by rw [ringFull, nextIndex_eq, beq_iff_eq], ringEmpty_iff r, ringFull_iff r⟩

theorem ringFull_eq_false_iff (r : RingBuffer) : ringFull r = false ↔ ringSize r < 255 := by
  have hlt := ringSize_lt r
  rw [Bool.eq_false_iff, ne_eq, ringFull_iff]
  omega

/-- The slot at `head` is never one of those held. -/
theorem heldIndex_ne_head {r : RingBuffer} {k : Nat} (h : k < ringSize r) :
    (r.tail.toNat + k) % ringSlots ≠ r.head.toNat := by
  have hhead := r.head.isLt
  have htail := r.tail.isLt
  simp only [ringSize, ringSlots] at h ⊢
  omega

theorem heldBytes_ringWrite_head (r : RingBuffer) (b : Byte) : heldBytes (ringWrite r r.head.toNat b) = heldBytes r :=
  List.map_congr_left fun k hk => by
    have hne := heldIndex_ne_head (r := r) (List.mem_range.mp hk)
    rw [ringRead_write, ringWrite_tail, if_neg hne]

/-- A pop returns the oldest byte held. -/
theorem popByte_fst (r : RingBuffer) : (popByte r).map Prod.fst = (heldBytes r).head? := by
  cases h : popByte r with
  | none => rw [(heldBytes_eq_nil_iff r).mpr h]; rfl
  | some br => rw [heldBytes_pop h]; rfl

/-- Settles O25: the half push writes the slot at `head`, which holds no byte of the ring. -/
theorem pushIsInvisibleUntilHeadMoves : Obligations.PushIsInvisibleUntilHeadMoves := fun b r hroom => by
  refine ⟨heldBytes_ringWrite_head r b, rfl, ?_, ?_, heldBytes_push b hroom⟩
  · rw [popByte_fst, popByte_fst, heldBytes_ringWrite_head]
  · rw [pushByte, nextIndex_eq, ringWrite_head]

/-- A pop after a push takes the byte that a pop before it takes, and leaves the pushed rest. -/
theorem popByte_pushByte {r r' : RingBuffer} {x : Byte} (b : Byte) (hroom : ringFull r = false)
    (h : popByte r = some (x, r')) : popByte (pushByte r b) = some (x, pushByte r' b) := by
  obtain ⟨hheld, rfl, rfl⟩ := popByte_eq_some h
  have hne := heldIndex_ne_head (Nat.pos_of_ne_zero hheld)
  rw [Nat.add_zero, ringSlots, Nat.mod_eq_of_lt r.tail.isLt] at hne
  rw [popByte_of_nonempty (by rw [ringSize_push b hroom]; omega), pushByte_tail, ringRead_push, if_neg hne]
  rfl

theorem ringFull_of_popByte {r r' : RingBuffer} {x : Byte} (h : popByte r = some (x, r')) : ringFull r' = false := by
  have hsize := ringSize_of_popByte h
  have hlt := ringSize_lt r
  exact (ringFull_eq_false_iff r').mpr (by omega)

theorem exists_popByte_of_size {r : RingBuffer} (h : ringSize r ≠ 0) : ∃ b r', popByte r = some (b, r') :=
  ⟨_, _, popByte_of_nonempty h⟩

/-- Settles O24: neither operation meets its empty or full case, and the two rings agree by `popByte_pushByte`. -/
theorem pushAndPopCommute : Obligations.PushAndPopCommute := fun b s hheld hroom => by
  obtain ⟨x, r, hpop⟩ := exists_popByte_of_size (mt (ringEmpty_iff s.ring).mpr (Bool.eq_false_iff.mp hheld))
  refine ⟨deliver (popResult (some x)) { s with ring := pushByte r b }, ?_, ?_⟩
  · rw [runInstrs_cons_of_next (exec_ringPush_of_room hroom), runInstrs_cons_of_next
      (exec_ringPop_of_pop (s := { s with ring := pushByte s.ring b }) (popByte_pushByte b hroom hpop))]
    rfl
  · rw [runInstrs_cons_of_next (exec_ringPop_of_pop hpop), runInstrs_cons_of_next
      (exec_ringPush_of_room (s := deliver (popResult (some x)) { s with ring := r }) (ringFull_of_popByte hpop))]
    rfl

end Sys2Proof.Machine
end

section
/-! PROOFS. R62, R105, R103 (d): runs of ring operations against the queue of 255 bytes, and the pops that a size
promises. -/

namespace Sys2Proof.Machine

/-- Each ring operation does to the state what it does to the queue that the state shows, and writes nothing else. -/
theorem exec_ringOp_queue {i : Instr} (h : isRingOp i = true) (s : State) :
    ∃ t, exec i s = .next t ∧ t.queue = s.queue.apply i ∧
      t = { s with ring := t.ring, delivered := t.delivered, events := t.events } := by
  cases i with
  | ringReset =>
    have hnil : heldBytes (clearRing s.ring) = [] := heldBytes_of_empty (ringSize_clearRing s.ring)
    exact ⟨_, exec_ringReset s, by simp [State.queue, Queue.apply, hnil], rfl⟩
  | ringPush b =>
    cases hfull : ringFull s.ring with
    | true =>
      have hsize := (ringFull_iff s.ring).mp hfull
      exact ⟨_, exec_ringPush_of_full hfull, by simp [State.queue, Queue.apply, hsize], rfl⟩
    | false =>
      have hsize := (ringFull_eq_false_iff s.ring).mp hfull
      exact ⟨_, exec_ringPush_of_room hfull, by simp [State.queue, Queue.apply, hsize, heldBytes_push b hfull], rfl⟩
  | ringPop =>
    cases hpop : popByte s.ring with
    | none =>
      have hnil := (heldBytes_eq_nil_iff s.ring).mpr hpop
      exact ⟨_, exec_ringPop_of_empty hpop, by simp [State.queue, Queue.apply, hnil], rfl⟩
    | some br => exact ⟨_, exec_ringPop_of_pop hpop, by simp [State.queue, Queue.apply, heldBytes_pop hpop], rfl⟩
  | ringSize => exact ⟨_, exec_ringSize s, by simp [State.queue, Queue.apply], rfl⟩
  | _ => cases h

/-- The simulation along a run. -/
theorem runInstrs_ringOps_queue (ops : List Instr) (s : State) (h : ∀ i ∈ ops, isRingOp i = true) :
    ∃ t, runInstrs ops s = some t ∧ t.queue = ops.foldl (fun q i => q.apply i) s.queue ∧
      t = { s with ring := t.ring, delivered := t.delivered, events := t.events } := by
  induction ops generalizing s with
  | nil => exact ⟨s, rfl, rfl, rfl⟩
  | cons i ops ih =>
    obtain ⟨hop, hops⟩ := List.forall_mem_cons.mp h
    obtain ⟨t, hexec, hqueue, hframe⟩ := exec_ringOp_queue hop s
    obtain ⟨u, hrun, hqueue', hframe'⟩ := ih t hops
    exact ⟨u, by rw [runInstrs_cons_of_next hexec, hrun], by rw [hqueue', hqueue, List.foldl_cons],
      by rw [hframe', hframe]⟩

/-- Settles O21, by the simulation `runInstrs_ringOps_queue`. -/
theorem ringRefinesTheQueue : Obligations.RingRefinesTheQueue := fun ops s h => by
  obtain ⟨t, hrun, hqueue, hframe⟩ := runInstrs_ringOps_queue ops s h
  exact ⟨t, hrun, hqueue, (heldBytes_length _).symm,
    by rw [heldBytes_length]; exact Nat.le_of_lt_succ (ringSize_lt _), hframe⟩

/-- Settles O18, by induction on the operations: a push never makes the ring smaller, and a pop that the size allows finds
a byte and takes one from the size. -/
theorem sizePromisesPops : Obligations.SizePromisesPops := fun ops => by
  induction ops with
  | nil => exact fun s _ _ => ⟨s, [], rfl, by simp, rfl, nofun⟩
  | cons i ops ih =>
    intro s hall hcount
    obtain ⟨rfl | ⟨b, rfl⟩, hops⟩ := List.forall_mem_cons.mp hall
    · rw [List.count_cons_self] at hcount
      obtain ⟨b, r, hpop⟩ := exists_popByte_of_size (r := s.ring) (by omega)
      have hsize := ringSize_of_popByte hpop
      obtain ⟨t, results, hrun, hdelivered, hlength, hsome⟩ :=
        ih (deliver (popResult (some b)) { s with ring := r }) hops (by show _ ≤ ringSize r; omega)
      exact ⟨t, popResult (some b) :: results, by rw [runInstrs_cons_of_next (exec_ringPop_of_pop hpop), hrun],
        by simp [hdelivered], by simp [hlength], List.forall_mem_cons.mpr ⟨⟨b, rfl⟩, hsome⟩⟩
    · have hpops : (Instr.ringPush b :: ops).count .ringPop = ops.count .ringPop := by simp
      rw [hpops] at hcount ⊢
      cases hfull : ringFull s.ring with
      | true =>
        rw [runInstrs_cons_of_next (exec_ringPush_of_full hfull)]
        exact ih (note (.overflow b) s) hops hcount
      | false =>
        rw [runInstrs_cons_of_next (exec_ringPush_of_room hfull)]
        exact ih { s with ring := pushByte s.ring b } hops (by rw [ringSize_push b hfull]; omega)

end Sys2Proof.Machine
end

section
/-! PROOFS. R132, R62: pushes and iterations of `FEED`, however interleaved. `Relayed` is the account of such a run: which
bytes it popped and stored, and which results it delivered. The accounts of two runs in a row join. -/

namespace Sys2Proof.Machine

/-- The byte of a `RING_PUSH`. -/
def pushedByte : Instr → Option Byte
  | .ringPush b => some b
  | _ => none

/-- A run of `ops` from `s` to `t` that takes `popped` off the ring and stores `stored`: the reassembler has seen the bytes
popped and nothing else, and the ring is first in, first out. -/
structure Relayed (ops : List Instr) (s t : State) (popped stored : List Byte) (results : List Delivery) : Prop where
  held : popped ++ heldBytes t.ring = heldBytes s.ring ++ stored
  stored_sublist : stored.Sublist (ops.filterMap pushedByte)
  asm : t.asm = (absorb s.asm popped).asm
  delivered : t.delivered = s.delivered ++ results
  frames : results.filterMap deliveredFrame = (absorb s.asm popped).frames

theorem Relayed.nil (s : State) : Relayed [] s s [] [] [] :=
  ⟨by simp, .refl _, rfl, by simp, rfl⟩

theorem Relayed.cons {i : Instr} {ops : List Instr} {s t u : State} {popped₁ popped₂ stored₁ stored₂ : List Byte}
    {results₁ results₂ : List Delivery} (h₁ : Relayed [i] s t popped₁ stored₁ results₁)
    (h₂ : Relayed ops t u popped₂ stored₂ results₂) :
    Relayed (i :: ops) s u (popped₁ ++ popped₂) (stored₁ ++ stored₂) (results₁ ++ results₂) where
  held := by rw [List.append_assoc, h₂.held, ← List.append_assoc, h₁.held, List.append_assoc]
  stored_sublist := by
    rw [← List.singleton_append, List.filterMap_append]
    exact h₁.stored_sublist.append h₂.stored_sublist
  asm := by rw [absorb_append, h₂.asm, h₁.asm]
  delivered := by rw [h₂.delivered, h₁.delivered, List.append_assoc]
  frames := by rw [List.filterMap_append, absorb_append, h₁.frames, h₂.frames, h₁.asm]

/-- A push stores its byte, or drops it when the ring is full. -/
theorem exec_ringPush_relayed (b : Byte) (s : State) :
    ∃ t stored, exec (.ringPush b) s = .next t ∧ Relayed [.ringPush b] s t [] stored [] := by
  cases hfull : ringFull s.ring with
  | true => exact ⟨_, [], exec_ringPush_of_full hfull, by simp, by simp, rfl, by simp, rfl⟩
  | false =>
    exact ⟨_, [b], exec_ringPush_of_room hfull, heldBytes_push b hfull, .refl _, rfl, by simp, rfl⟩

/-- An iteration pops one byte into the reassembler, or finds the ring empty and returns `none`. -/
theorem feedIteration_relayed (s : State) :
    ∃ popped results, Relayed [.feed] s (feedIteration s) popped [] results := by
  cases hpop : popByte s.ring with
  | none =>
    rw [feedIteration_of_empty hpop]
    exact ⟨[], [.feed 0 []], by simp, .refl _, rfl, rfl, rfl⟩
  | some br =>
    obtain ⟨b, r⟩ := br
    have hframe := deliveredFrame_feedResult_stepByte s.asm b
    rw [feedIteration_of_pop hpop]
    refine ⟨[b], (stepByte s.asm b).frame.toList.map fun f => feedResult (some f),
      by simp [heldBytes_pop hpop], .refl _, by simp [absorb], by simp, ?_⟩
    cases hf : (stepByte s.asm b).frame with
    | none => simp [absorb, hf]
    | some f =>
      rw [hf] at hframe
      simp [absorb, hf, hframe]

theorem runInstrs_relayed (ops : List Instr) (s : State) (h : ∀ i ∈ ops, i = .feed ∨ ∃ b, i = .ringPush b) :
    ∃ t popped stored results, runInstrs ops s = some t ∧ Relayed ops s t popped stored results := by
  induction ops generalizing s with
  | nil => exact ⟨s, [], [], [], rfl, Relayed.nil s⟩
  | cons i ops ih =>
    obtain ⟨rfl | ⟨b, rfl⟩, hops⟩ := List.forall_mem_cons.mp h
    · obtain ⟨popped, results, hfirst⟩ := feedIteration_relayed s
      obtain ⟨t, _, _, _, hrun, hrest⟩ := ih (feedIteration s) hops
      exact ⟨t, _, _, _, by rw [runInstrs_cons_of_next (exec_feed s), hrun], hfirst.cons hrest⟩
    · obtain ⟨u, stored, hexec, hfirst⟩ := exec_ringPush_relayed b s
      obtain ⟨t, _, _, _, hrun, hrest⟩ := ih u hops
      exact ⟨t, _, _, _, by rw [runInstrs_cons_of_next hexec, hrun], hfirst.cons hrest⟩

/-- Settles O37: the account that every such run keeps. -/
theorem incrementalDeliveryIsTransparent : Obligations.IncrementalDeliveryIsTransparent := fun ops s h => by
  obtain ⟨t, popped, stored, results, hrun, hheld, hstored, hasm, hdelivered, hframes⟩ := runInstrs_relayed ops s h
  exact ⟨t, popped, stored, results, hrun, hheld, hstored, hasm, hdelivered, hframes⟩

end Sys2Proof.Machine
end

section
/-! PROOFS. R86, R138: `FEED` repeated until it returns `none`, and one `FEED` on the schedule of the machine. -/

namespace Sys2Proof.Machine

/-- A `FEED` that returns a frame has taken at least one byte. -/
theorem FeedRun.ringSize_lt_of_frame {s t : State} {bytes f : List Byte} (h : FeedRun s t bytes (some f)) :
    ringSize t.ring < ringSize s.ring := by
  have hbytes : bytes ≠ [] := by
    rintro rfl
    exact absurd h.frames nofun
  have hlen := List.length_pos_iff.mpr hbytes
  rw [← heldBytes_length s.ring, h.held, List.length_append, heldBytes_length]
  omega

/-- What a drain of any state gives: the frames and the assembly state of the bytes held, and an empty ring. -/
structure Drained (s : State) (result : List (List Byte) × State) : Prop where
  frames : result.1 = (absorb s.asm (heldBytes s.ring)).frames
  held : heldBytes result.2.ring = []
  asm : result.2.asm = (absorb s.asm (heldBytes s.ring)).asm

/-- More `FEED`s than the ring holds bytes drain it: the last of them returns `none`. -/
theorem drained_drainLoop (n : Nat) (s : State) (h : ringSize s.ring < n) : Drained s (drainLoop n s) := by
  induction n generalizing s with
  | zero => omega
  | succ n ih =>
    obtain ⟨bytes, result, hrun⟩ := exists_feedRun_feedWhole s
    have hlast : (feedWhole s).delivered.getLast?.bind deliveredFrame = result := by
      rw [hrun.delivered, List.getLast?_concat, Option.bind_some, hrun.readable]
    cases result with
    | none =>
      have hloop : drainLoop (n + 1) s = ([], feedWhole s) := by simp only [drainLoop, hlast]
      have hheld := hrun.drained rfl
      have hbytes : heldBytes s.ring = bytes := by rw [hrun.held, hheld, List.append_nil]
      rw [hloop]
      exact ⟨by rw [hbytes, hrun.frames]; rfl, hheld, by rw [hbytes]; exact hrun.asm⟩
    | some f =>
      have hloop : drainLoop (n + 1) s =
          (f :: (drainLoop n (feedWhole s)).1, (drainLoop n (feedWhole s)).2) := by simp only [drainLoop, hlast]
      have hsize := hrun.ringSize_lt_of_frame
      obtain ⟨hframes, hheld, hasm⟩ := ih (feedWhole s) (by omega)
      rw [hloop]
      refine ⟨?_, hheld, ?_⟩
      · rw [hrun.held, absorb_append, hrun.frames, ← hrun.asm, hframes]
        rfl
      · rw [hrun.held, absorb_append, ← hrun.asm, hasm]

theorem drained_drain (s : State) : Drained s (drain s) := drained_drainLoop _ s (Nat.lt_add_one _)

/-- Settles O47. -/
theorem drainReturnsEveryFrame : Obligations.DrainReturnsEveryFrame := fun s =>
  ⟨(drained_drain s).frames, (drained_drain s).held, (drained_drain s).asm⟩

/-- What an iteration of `FEED` comes to: it delivers one result and ends, or it goes on with one byte fewer held. -/
theorem feedIteration_cases (s : State) :
    ((feedIteration s).feeding = false ∧ ∃ d, (feedIteration s).delivered = s.delivered ++ [d]) ∨
    ((feedIteration s).feeding = true ∧ (feedIteration s).delivered = s.delivered ∧
      (feedIteration s).schedule = s.schedule ∧ ringSize (feedIteration s).ring + 1 = ringSize s.ring) := by
  cases hpop : popByte s.ring with
  | none => exact .inl ⟨(FeedRun.of_empty hpop).stopped, _, (FeedRun.of_empty hpop).delivered⟩
  | some br =>
    obtain ⟨b, r⟩ := br
    cases hf : (stepByte s.asm b).frame with
    | some f => exact .inl ⟨(FeedRun.of_frame hpop hf).stopped, _, (FeedRun.of_frame hpop hf).delivered⟩
    | none =>
      have hsize := ringSize_of_popByte hpop
      rw [feedIteration_of_pop hpop]
      exact .inr ⟨by simp [hf], by simp [hf], by simp, by simp [hsize]⟩

/-- With the next `n + 1` turns the consumer's, a `FEED` on a ring of `n` bytes ends in as many steps. -/
theorem exists_run_of_feeding (n : Nat) (s : State) (rest : List Turn) (hsize : ringSize s.ring = n)
    (hbusy : s.feeding = true) (hturns : s.schedule = List.replicate (n + 1) .consumer ++ rest) :
    ∃ k ≤ n + 1, ∃ t d, 0 < k ∧ Host.Core.run core k s = .next t ∧ t.feeding = false ∧
      t.delivered = s.delivered ++ [d] := by
  induction n generalizing s with
  | zero =>
    have hstep := step_of_busy_consumer hturns hbusy
    rcases feedIteration_cases { s with schedule := rest } with ⟨hends, d, hd⟩ | ⟨-, -, -, hless⟩
    · exact ⟨1, le_rfl, _, d, Nat.one_pos, core_run_succ 0 hstep, hends, hd⟩
    · exact absurd (hless.trans hsize) (Nat.succ_ne_zero _)
  | succ n ih =>
    have hstep := step_of_busy_consumer hturns hbusy
    rcases feedIteration_cases { s with schedule := List.replicate (n + 1) .consumer ++ rest } with
      ⟨hends, d, hd⟩ | ⟨hgoes, hsame, hschedule, hless⟩
    · exact ⟨1, by omega, _, d, Nat.one_pos, core_run_succ 0 hstep, hends, hd⟩
    · obtain ⟨k, hk, t, d, -, hrun, hends, hd⟩ :=
        ih _ (Nat.succ_injective (hless.trans hsize)) hgoes hschedule
      exact ⟨k + 1, by omega, t, d, Nat.succ_pos k, (core_run_succ k hstep).trans hrun, hends, by rw [hd, hsame]⟩

/-- Settles O46. -/
theorem feedEndsWhenTheProducerIsQuiet : Obligations.FeedEndsWhenTheProducerIsQuiet := fun s rest hbusy hturns =>
  exists_run_of_feeding _ s rest rfl hbusy hturns

end Sys2Proof.Machine
end

section
/-! PROOFS. R121 to R126: `STEP` of one byte as equations, for a byte discarded while idle, a frame start, a byte inside a
frame and a byte at a full buffer. -/

namespace Sys2Proof.Machine

theorem position_pos_iff {a : Assembly} : 0 < a.position.toNat ↔ a.position ≠ 0 := by
  rw [Nat.pos_iff_ne_zero, ne_eq, ne_eq, ← BitVec.toNat_inj]
  rfl

/-- R122, R124: the store of a frame start. -/
theorem stored_of_idle {a : Assembly} (h : a.position = 0) (b : Byte) :
    stored a b = { a with out := Memory.store a.out 0 b, position := 1, expectedLength := 6, leadingByte := b } := by
  simp [stored, storeClause, tapClause, startClause, outWrite, h, defaultLength, expInit]

/-- R123, R124: the store of a byte inside a frame. -/
theorem stored_of_inside {a : Assembly} (h : a.position ≠ 0) (b : Byte) :
    stored a b =
      { a with
        out := Memory.store a.out a.position.toNat b
        position := a.position + 1
        expectedLength :=
          if a.position.toNat = 5 ∧ a.leadingByte ∈ varLeadBytes then extendedLength b else a.expectedLength } := by
  simp only [stored, storeClause, tapClause, startClause, outWrite, if_neg h, defaultLength]
  split <;> rfl

/-- The stored bytes are those from before and the new one. -/
theorem frameBytes_stored (a : Assembly) (b : Byte) :
    frameBytes (stored a b) (a.position.toNat + 1) = frameBytes a a.position.toNat ++ [b] := by
  rw [frameBytes, List.range_succ, List.map_append]
  congr 1
  · refine List.map_congr_left fun k hk => ?_
    rw [outRead_stored, if_neg (Nat.ne_of_lt (List.mem_range.mp hk))]
  · simp [outRead_stored]

/-- R125: after a store that takes `position` past the threshold the frame is complete. -/
theorem stepByte_complete {a : Assembly} {b : Byte} (hb : a.position = 0 → b ∈ leadBytes)
    (hroom : a.position.toNat < 65) (hlt : (stored a b).expectedLength.toNat < a.position.toNat + 1) :
    stepByte a b = ⟨{ stored a b with position := 0 }, some (frameBytes a a.position.toNat ++ [b]), none⟩ := by
  have hposition := stored_position (a := a) (b := b) hroom
  rw [stepByte_stored hb hroom, completionClause, hposition, if_pos hlt, frameBytes_stored]

/-- R125: after any other store the frame goes on. -/
theorem stepByte_continue {a : Assembly} {b : Byte} (hb : a.position = 0 → b ∈ leadBytes)
    (hroom : a.position.toNat < 65) (hle : a.position.toNat + 1 ≤ (stored a b).expectedLength.toNat) :
    stepByte a b = ⟨stored a b, none, none⟩ := by
  have hposition := stored_position (a := a) (b := b) hroom
  rw [stepByte_stored hb hroom, completionClause, hposition, if_neg (Nat.not_lt.mpr hle)]

/-- R122: a frame start does not complete. -/
theorem stepByte_start {a : Assembly} {b : Byte} (hidle : a.position = 0) (hb : b ∈ leadBytes) :
    stepByte a b = ⟨stored a b, none, none⟩ :=
  stepByte_continue (fun _ => hb) (by rw [hidle]; decide) (by rw [stored_of_idle hidle, hidle]; show 0 + 1 ≤ 6; decide)

/-- What a frame start leaves in the assembly state. -/
theorem stored_start_reads {a : Assembly} (hidle : a.position = 0) (b : Byte) :
    (stored a b).leadingByte = b ∧ (stored a b).expectedLength = 6 ∧ (stored a b).position = 1 ∧
      outRead (stored a b) 0 = b ∧ ∀ j, j ≠ 0 → outRead (stored a b) j = outRead a j := by
  have hread := outRead_stored a b
  have hzero : a.position.toNat = 0 := by rw [hidle]; rfl
  rw [hzero] at hread
  refine ⟨by rw [stored_of_idle hidle], by rw [stored_of_idle hidle], by rw [stored_of_idle hidle], ?_, fun j hj => ?_⟩
  · rw [hread, if_pos rfl]
  · rw [hread, if_neg hj]

theorem consumeByte_of_start {s : State} {b : Byte} (hidle : s.asm.position = 0) (hb : b ∈ leadBytes) :
    consumeByte b s = { s with asm := stored s.asm b, feeding := true } := by
  simp [consumeByte_eq, stepByte_start hidle hb]

theorem consumeByte_of_noise {s : State} {b : Byte} (hidle : s.asm.position = 0) (hb : b ∉ leadBytes) :
    consumeByte b s = { s with feeding := true, events := s.events ++ [.noise b] } := by
  simp [consumeByte_eq, stepByte_noise hidle hb]

theorem consumeByte_of_full {s : State} (b : Byte) (hfull : s.asm.position.toNat = 65) :
    consumeByte b s = { s with
      feeding := true, asm := { s.asm with position := 0, leadingByte := 0x00 },
      events := s.events ++ [.oversize b] } := by
  simp [consumeByte_eq, stepByte_exhausted (b := b) (Nat.le_of_eq hfull.symm)]

theorem exec_feed_of_pop {s : State} {b : Byte} {r : RingBuffer} (h : popByte s.ring = some (b, r)) :
    exec .feed s = .next (consumeByte b { s with ring := r }) := by
  rw [exec_feed, feedIteration_of_pop h]

/-- Settles O26. -/
theorem noiseIsDiscardedWhileIdle : Obligations.NoiseIsDiscardedWhileIdle := fun s b r hpop hidle hb => by
  rw [exec_feed_of_pop hpop, consumeByte_of_noise (s := { s with ring := r }) hidle hb]

/-- Settles O27: the iteration is the store of a frame start (`stored_of_idle`). -/
theorem frameStartIsAccepted : Obligations.FrameStartIsAccepted := fun s b r hpop hidle hb => by
  obtain ⟨hleading, hthreshold, hposition, hfirst, hrest⟩ := stored_start_reads hidle b
  rw [exec_feed_of_pop hpop, consumeByte_of_start (s := { s with ring := r }) hidle hb]
  exact ⟨_, rfl, hleading, hthreshold, hposition, hfirst, hrest, rfl⟩

/-- Settles O34: a leading byte's instruction is `STEP` of that byte (`exec_of_encode_frameByte`). -/
theorem leadingBytesStartFrames : Obligations.LeadingBytesStartFrames := fun i b s hcode hidle => by
  obtain ⟨hleading, hthreshold, hposition, hfirst, hrest⟩ := stored_start_reads hidle b
  rw [exec_of_encode_frameByte hcode, consumeByte_of_start hidle (mem_leadBytes_of_encode hcode)]
  exact ⟨_, rfl, hleading, hthreshold, hposition, hfirst, hrest, rfl⟩

/-- Settles O31. -/
theorem overlongFrameIsAbandoned : Obligations.OverlongFrameIsAbandoned := fun s b r hpop hfull => by
  rw [exec_feed_of_pop hpop, consumeByte_of_full (s := { s with ring := r }) b hfull]

/-- Settles O35: inside a frame the byte is stored (`stepByte_stored`), at a full buffer the frame is abandoned. -/
theorem leadingBytesInsideAFrameAreData : Obligations.LeadingBytesInsideAFrameAreData := fun i b s hcode hpos => by
  refine ⟨fun hroom => ⟨_, exec_of_encode_frameByte hcode s, ?_⟩, fun hfull => ?_⟩
  · have hinside := position_pos_iff.mp hpos
    have hstep := stepByte_stored (b := b) (fun h0 => absurd h0 hinside) hroom
    refine ⟨?_, ?_, by simp [hstep], by simp⟩
    · rw [consumeByte_asm, hstep, completionClause_leadingByte, stored_leadingByte, if_neg hinside]
    · rw [consumeByte_asm, hstep, outRead_completionClause, outRead_stored, if_pos rfl]
  · rw [exec_of_encode_frameByte hcode, consumeByte_of_full b hfull]

end Sys2Proof.Machine
end

section
/-! PROOFS. R123, R125, R127: the length byte, the completion test, and the nine rows of the transition table. -/

namespace Sys2Proof.Machine

/-- R124: a data byte changes `out` and `position` only. -/
theorem stored_of_data {a : Assembly} (b : Byte) (hinside : 0 < a.position.toNat)
    (hdata : ¬ (a.position.toNat = 5 ∧ a.leadingByte ∈ varLeadBytes)) :
    stored a b = { a with out := Memory.store a.out a.position.toNat b, position := a.position + 1 } := by
  rw [stored_of_inside (position_pos_iff.mp hinside), if_neg hdata]

/-- R123: the length byte sets the threshold too. -/
theorem stored_of_lengthByte {a : Assembly} (b : Byte) (hfive : a.position = 5) (hvar : a.leadingByte ∈ varLeadBytes) :
    stored a b =
      { a with out := Memory.store a.out 5 b, position := 6, expectedLength := extendedLength b } := by
  have hinside : a.position ≠ 0 := by rw [hfive]; decide
  rw [stored_of_inside hinside, hfive, if_pos ⟨rfl, hvar⟩]
  rfl

theorem stepByte_lengthByte_zero {a : Assembly} (hfive : a.position = 5) (hvar : a.leadingByte ∈ varLeadBytes) :
    stepByte a 0 = ⟨{ stored a 0 with position := 0 }, some (frameBytes a 5 ++ [0]), none⟩ := by
  have hstored := stored_of_lengthByte 0 hfive hvar
  have hcomplete := stepByte_complete (a := a) (b := 0) (fun h0 => by rw [hfive] at h0; cases h0)
    (by rw [hfive]; decide) (by rw [hstored, hfive]; show 5 < 5 + 1; decide)
  rwa [hfive] at hcomplete

theorem stepByte_lengthByte_succ {a : Assembly} {b : Byte} (hfive : a.position = 5)
    (hvar : a.leadingByte ∈ varLeadBytes) (hb : b ≠ 0) : stepByte a b = ⟨stored a b, none, none⟩ := by
  have hpos : 0 < b.toNat := Nat.pos_of_ne_zero fun h0 => hb (BitVec.eq_of_toNat_eq h0)
  refine stepByte_continue (fun h0 => by rw [hfive] at h0; cases h0) (by rw [hfive]; decide) ?_
  rw [stored_of_lengthByte b hfive hvar, hfive]
  show 5 + 1 ≤ (extendedLength b).toNat
  rw [extendedLength_toNat]
  omega

/-- Settles O28. -/
theorem lengthByteSetsTheThreshold : Obligations.LengthByteSetsTheThreshold := fun s b r hpop hfive hvar => by
  have hstored := stored_of_lengthByte b hfive hvar
  have hstep : stepByte s.asm b = completionClause (stored s.asm b) :=
    stepByte_stored (fun h0 => by rw [hfive] at h0; cases h0) (by rw [hfive]; decide)
  refine ⟨_, exec_feed_of_pop hpop, by simp, ?_, ?_, ?_, ?_, fun hb => ?_⟩
  · rw [consumeByte_asm, hstep, completionClause_expectedLength, hstored, extendedLength_toNat]
    omega
  · rw [consumeByte_asm, hstep, outRead_completionClause, outRead_stored, hfive]
    rfl
  · rw [consumeByte_asm, hstep, completionClause_leadingByte, hstored]
  · intro hb
    have hcomplete := stepByte_lengthByte_zero hfive hvar
    rw [← hb] at hcomplete
    simp [hcomplete, feedResult, frameBytes]
  · simp [stepByte_lengthByte_succ hfive hvar hb, hstored]

theorem position_eq_five_iff {a : Assembly} : a.position = 5 ↔ a.position.toNat = 5 := by
  rw [← BitVec.toNat_inj]
  rfl

/-- A threshold after a store is one of three: of a frame start, of a length byte, or the one before (R26). -/
theorem stored_threshold_cases (a : Assembly) (b : Byte) :
    (stored a b).expectedLength.toNat = 6 ∨ (stored a b).expectedLength.toNat = 5 + b.toNat ∨
      (stored a b).expectedLength.toNat = a.expectedLength.toNat := by
  rw [stored_expectedLength]
  split
  · exact .inl rfl
  · split
    · exact .inr (.inl (extendedLength_toNat b))
    · exact .inr (.inr rfl)

/-- Settles O30: the two outcomes of the completion test are `stepByte_complete` and `stepByte_continue`. -/
theorem completionIsStrict : Obligations.CompletionIsStrict := fun s b r hpop hb hroom hmin => by
  have hstep : stepByte s.asm b = completionClause (stored s.asm b) := stepByte_stored hb hroom
  have hthreshold : (consumeByte b { s with ring := r }).asm.expectedLength = (stored s.asm b).expectedLength := by
    rw [consumeByte_asm, hstep, completionClause_expectedLength]
  refine ⟨_, exec_feed_of_pop hpop, ?_, ?_, ?_⟩
  · rw [consumeByte_asm, hstep, completionClause_leadingByte, stored_leadingByte]
  · rw [hthreshold, stored_expectedLength]
    simp only [position_eq_five_iff]
    rfl
  · rw [hthreshold]
    split
    next hlt =>
      have hcomplete := stepByte_complete hb hroom hlt
      have hlength : (frameBytes s.asm s.asm.position.toNat ++ [b]).length = s.asm.position.toNat + 1 := by
        simp [frameBytes]
      have hlen : BitVec.ofNat 7 (frameBytes s.asm s.asm.position.toNat ++ [b]).length = s.asm.position + 1 := by
        rw [hlength, BitVec.ofNat_add, BitVec.ofNat_toNat, BitVec.setWidth_eq]
        rfl
      have hsix := stored_threshold_cases s.asm b
      refine ⟨by simp [hcomplete], by simp [hcomplete], ⟨_, ?_, rfl, by omega, by omega⟩, fun k _ => ?_⟩
      · rw [consumeByte_delivered, hcomplete]
        exact congrArg (fun len => s.delivered ++ [Delivery.feed len _]) hlen
      · rw [consumeByte_asm, hstep, outRead_completionClause, outRead_stored]
    next hge =>
      have hgoes := stepByte_continue hb hroom (Nat.not_lt.mp hge)
      refine ⟨?_, by simp [hgoes], by simp [hgoes]⟩
      rw [consumeByte_asm, hgoes, stored, storeClause, tapClause_position, startClause_position]

/-- Settles O36: a row for each clause of `STEP`; the invariant gives the threshold where the row names `position` only. -/
theorem transitionTable : Obligations.TransitionTable := fun a b hinv => by
  intro p e a' put
  have hidle : p = 0 → a.position = 0 := fun h => BitVec.eq_of_toNat_eq h
  have hstart (h : 1 ≤ p) : a.position = 0 → b ∈ leadBytes := fun h0 => absurd h0 (position_pos_iff.mp h)
  refine ⟨?noise, ?start, ?header, ?fixed, ?lengthZero, ?length, ?data, ?complete, ?full⟩
  case noise => exact fun h0 hb => stepByte_noise (hidle h0) hb
  case start =>
    intro h0 hb
    have hput : put = { a with out := Memory.store a.out 0 b } := by rw [← h0]
    rw [stepByte_start (hidle h0) hb, stored_of_idle (hidle h0), hput]
  case header =>
    intro h1 h4
    have hstored := stored_of_data (a := a) b h1 fun h5 => absurd h5.1 (by omega)
    have hsix := hinv.headerThreshold h1 (h4.trans (by decide))
    rw [stepByte_continue (hstart h1) (by omega), hstored]
    rw [hstored, hsix]
    show p + 1 ≤ 6
    omega
  case fixed =>
    intro h5 hfix
    have hstored := stored_of_data (a := a) b (by omega) fun htap => (mem_fixLeadBytes_iff.mp hfix).2 htap.2
    have hsix := hinv.fixedThreshold (by omega) hfix
    have hnext : a.position + 1 = 6 := by rw [position_eq_five_iff.mpr h5]; rfl
    rw [stepByte_continue (hstart (by omega)) (by omega), hstored, hnext]
    rw [hstored, hsix]
    show p + 1 ≤ 6
    omega
  case lengthZero =>
    rintro h5 hvar rfl
    have hfive := position_eq_five_iff.mpr h5
    have hput : put = { a with out := Memory.store a.out 5 0 } := by rw [← h5]
    rw [stepByte_lengthByte_zero hfive hvar, stored_of_lengthByte 0 hfive hvar, hput]
    rfl
  case length =>
    intro h5 hvar hb
    have hfive := position_eq_five_iff.mpr h5
    have hstep := stepByte_lengthByte_succ hfive hvar hb
    have hstored := stored_of_lengthByte b hfive hvar
    have hput : put = { a with out := Memory.store a.out 5 b } := by rw [← h5]
    have hthreshold : a'.expectedLength = extendedLength b := by
      show (stepByte a b).asm.expectedLength = _
      rw [hstep, hstored]
    exact ⟨by rw [hthreshold, extendedLength_toNat], by rw [hstep, hstored, hthreshold, hput]⟩
  case data =>
    intro h6 h64 hle
    have hstored := stored_of_data (a := a) b (by omega) fun h5 => absurd h5.1 (by omega)
    rw [stepByte_continue (hstart (by omega)) (by omega) (by rw [hstored]; exact hle), hstored]
  case complete =>
    intro h6 h64 hlt
    have hstored := stored_of_data (a := a) b (by omega) fun h5 => absurd h5.1 (by omega)
    have hpassed := hinv.notPassed (by omega)
    refine ⟨by omega, ?_⟩
    rw [stepByte_complete (hstart (by omega)) (by omega) (by rw [hstored]; exact hlt), hstored]
  case full => exact fun hfull => stepByte_exhausted (Nat.le_of_eq hfull.symm)

end Sys2Proof.Machine
end

section
/-! PROOFS. R72, R121 to R126, R133 to R136, R176: what a byte stream makes of an idle reassembler. `Builds` says that a
stream has been stored whole as the frame in progress; there is one lemma for each way the next byte can go. -/

namespace Sys2Proof.Machine

/-- The frame in progress is `bytes`, with leading byte `l` and threshold `e`. -/
structure InFrame (a : Assembly) (l : Byte) (e : Nat) (bytes : List Byte) : Prop where
  nonempty : 0 < bytes.length
  position : a.position.toNat = bytes.length
  content : frameBytes a bytes.length = bytes
  leadingByte : a.leadingByte = l
  threshold : a.expectedLength.toNat = e

/-- The stream `bytes` completes nothing and loses nothing: it is the frame in progress. -/
structure Builds (a : Assembly) (l : Byte) (e : Nat) (bytes : List Byte) : Prop where
  frames : (absorb a bytes).frames = []
  labels : (absorb a bytes).labels = []
  inFrame : InFrame (absorb a bytes).asm l e bytes

/-- The threshold after a byte that is stored inside a frame (R123, R124). -/
def thresholdAfter (l : Byte) (e : Nat) (bytes : List Byte) (b : Byte) : Nat :=
  if bytes.length = 5 ∧ l ∈ varLeadBytes then 5 + b.toNat else e

theorem absorb_concat (a : Assembly) (bytes : List Byte) (b : Byte) :
    absorb a (bytes ++ [b]) =
      { asm := (stepByte (absorb a bytes).asm b).asm
        frames := (absorb a bytes).frames ++ (stepByte (absorb a bytes).asm b).frame.toList
        labels := (absorb a bytes).labels ++ (stepByte (absorb a bytes).asm b).label.toList } := by
  rw [absorb_append]
  simp [absorb]

section
variable {a : Assembly} {l : Byte} {e : Nat} {bytes : List Byte}

theorem InFrame.position_ne_zero (h : InFrame a l e bytes) : a.position ≠ 0 := fun h0 => by
  have hpos := h.position
  rw [h0] at hpos
  exact absurd hpos.symm (Nat.ne_of_gt h.nonempty)

/-- The store of a byte inside a frame. -/
theorem InFrame.stored (h : InFrame a l e bytes) (hroom : bytes.length < 65) (b : Byte) :
    InFrame (stored a b) l (thresholdAfter l e bytes b) (bytes ++ [b]) := by
  obtain ⟨-, hposition, hcontent, hleading, hthreshold⟩ := id h
  have hp := stored_position (a := a) (b := b) (by rw [hposition]; exact hroom)
  refine ⟨by simp, by rw [hp, hposition, List.length_append]; rfl, ?_, ?_, ?_⟩
  · rw [List.length_append, List.length_singleton, ← hposition, frameBytes_stored, hposition, hcontent]
  · rw [stored_leadingByte, if_neg h.position_ne_zero, hleading]
  · rw [stored_expectedLength, if_neg h.position_ne_zero, hposition, hleading, thresholdAfter]
    split
    · exact extendedLength_toNat b
    · exact hthreshold

/-- Inside a frame `STEP` does not ask for a byte of `LEAD`. -/
theorem Builds.not_idle (h : Builds a l e bytes) (b : Byte) : (absorb a bytes).asm.position = 0 → b ∈ leadBytes :=
  fun h0 => absurd h0 h.inFrame.position_ne_zero

/-- R122: a byte of `LEAD` starts a frame. -/
theorem Builds.start {b : Byte} (hidle : a.position = 0) (hb : b ∈ leadBytes) : Builds a b 6 [b] := by
  have hstep := stepByte_start hidle hb
  have hcontent := frameBytes_stored a b
  have hstored := stored_of_idle hidle b
  rw [hidle] at hcontent
  refine ⟨by simp [absorb, hstep], by simp [absorb, hstep], ?_⟩
  simp only [absorb, hstep]
  exact ⟨Nat.one_pos, by rw [hstored]; rfl, hcontent, by rw [hstored], by rw [hstored]; rfl⟩

/-- R124, R125: a byte that does not take `position` past the threshold is stored, and the frame goes on. -/
theorem Builds.store (h : Builds a l e bytes) (hroom : bytes.length < 65) (b : Byte)
    (hle : bytes.length + 1 ≤ thresholdAfter l e bytes b) :
    Builds a l (thresholdAfter l e bytes b) (bytes ++ [b]) := by
  have hposition := h.inFrame.position
  have hin := h.inFrame.stored hroom b
  have hstep : stepByte (absorb a bytes).asm b = ⟨Machine.stored (absorb a bytes).asm b, none, none⟩ :=
    stepByte_continue (h.not_idle b) (by rwa [hposition]) (by rwa [hposition, hin.threshold])
  exact ⟨by simp [absorb_concat, hstep, h.frames], by simp [absorb_concat, hstep, h.labels],
    by rw [absorb_concat, hstep]; exact hin⟩

/-- R125: a byte that takes `position` past the threshold completes the frame. -/
theorem Builds.complete (h : Builds a l e bytes) (hroom : bytes.length < 65) (b : Byte)
    (hlt : thresholdAfter l e bytes b < bytes.length + 1) :
    (absorb a (bytes ++ [b])).frames = [bytes ++ [b]] ∧ (absorb a (bytes ++ [b])).labels = [] ∧
      (absorb a (bytes ++ [b])).asm.position = 0 := by
  have hposition := h.inFrame.position
  have hin := h.inFrame.stored hroom b
  have hstep := stepByte_complete (h.not_idle b) (by rwa [hposition]) (by rwa [hposition, hin.threshold])
  rw [hposition, h.inFrame.content] at hstep
  simp [absorb_concat, hstep, h.frames, h.labels]

/-- R126: at a full buffer the byte is discarded and the frame abandoned. -/
theorem Builds.exhaust (h : Builds a l e bytes) (hfull : bytes.length = 65) (b : Byte) :
    (absorb a (bytes ++ [b])).frames = [] ∧ (absorb a (bytes ++ [b])).labels = [.oversize b] ∧
      (absorb a (bytes ++ [b])).asm.position = 0 := by
  have hstep := stepByte_exhausted (a := (absorb a bytes).asm) (b := b)
    (by rw [h.inFrame.position, hfull]; exact le_rfl)
  simp [absorb_concat, hstep, h.frames, h.labels]

/-- A stretch of data that neither holds the length byte nor reaches the threshold. -/
theorem Builds.store_all (h : Builds a l e bytes) (data : List Byte)
    (hnotTap : 6 ≤ bytes.length ∨ bytes.length + data.length ≤ 5 ∨ l ∉ varLeadBytes)
    (hroom : bytes.length + data.length ≤ 65) (hle : bytes.length + data.length ≤ e) :
    Builds a l e (bytes ++ data) := by
  induction data generalizing bytes with
  | nil => simpa using h
  | cons b data ih =>
    rw [List.length_cons] at hnotTap hroom hle
    have hsame : thresholdAfter l e bytes b = e := if_neg fun htap => by
      rcases hnotTap with h6 | h5 | hfix
      · omega
      · omega
      · exact hfix htap.2
    have hnext := h.store (by omega) b (by omega)
    rw [hsame] at hnext
    have hlen : (bytes ++ [b]).length + data.length = bytes.length + (data.length + 1) := by simp; omega
    have hnotTap' : 6 ≤ (bytes ++ [b]).length ∨ bytes.length + (data.length + 1) ≤ 5 ∨ l ∉ varLeadBytes :=
      hnotTap.imp_left fun h6 => by simp; omega
    have hrest := ih hnext (by rwa [hlen]) (by rwa [hlen]) (by rwa [hlen])
    rwa [List.append_assoc] at hrest

end

end Sys2Proof.Machine
end

section
/-! PROOFS. R121, R133 to R136, R139, R176: the streams of those rules, each followed byte by byte through `Builds`, and the
count of all bytes. -/

namespace Sys2Proof.Machine

/-- The first five bytes of a frame of either class. -/
theorem builds_header {a : Assembly} {b0 : Byte} (hidle : a.position = 0) (h0 : b0 ∈ leadBytes) (b1 b2 b3 b4 : Byte) :
    Builds a b0 6 [b0, b1, b2, b3, b4] :=
  (Builds.start hidle h0).store_all [b1, b2, b3, b4] (.inr (.inl (by simp))) (by simp) (by simp)

/-- The first six bytes of a fixed-class frame. -/
theorem builds_fixed {a : Assembly} {b0 : Byte} (hidle : a.position = 0) (h0 : b0 ∈ fixLeadBytes)
    (b1 b2 b3 b4 b5 : Byte) : Builds a b0 6 [b0, b1, b2, b3, b4, b5] := by
  obtain ⟨hlead, hnotVar⟩ := mem_fixLeadBytes_iff.mp h0
  exact (Builds.start hidle hlead).store_all [b1, b2, b3, b4, b5] (.inr (.inr hnotVar)) (by simp) (by simp)

/-- A fixed-class frame, whole. -/
theorem absorb_fixed {a : Assembly} {b0 : Byte} (hidle : a.position = 0) (h0 : b0 ∈ fixLeadBytes)
    (b1 b2 b3 b4 b5 b6 : Byte) :
    (absorb a [b0, b1, b2, b3, b4, b5, b6]).frames = [[b0, b1, b2, b3, b4, b5, b6]] ∧
      (absorb a [b0, b1, b2, b3, b4, b5, b6]).labels = [] ∧
      (absorb a [b0, b1, b2, b3, b4, b5, b6]).asm.position = 0 :=
  (builds_fixed hidle h0 b1 b2 b3 b4 b5).complete (by simp) b6 (by simp [thresholdAfter])

/-- Settles O40. -/
theorem fixedFrameTakesSevenBytes : Obligations.FixedFrameTakesSevenBytes := fun _ _ b1 b2 b3 b4 b5 b6 hidle h0 => by
  have hsix := builds_fixed hidle h0 b1 b2 b3 b4 b5
  obtain ⟨hframes, hlabels, hposition⟩ := absorb_fixed hidle h0 b1 b2 b3 b4 b5 b6
  exact ⟨hsix.frames, BitVec.eq_of_toNat_eq hsix.inFrame.position, hframes, hlabels, hposition⟩

/-- Settles O39, by induction on the run. -/
theorem noiseRunsAreDiscarded : Obligations.NoiseRunsAreDiscarded := fun a bytes hidle hnoise => by
  induction bytes with
  | nil => rfl
  | cons b bytes ih =>
    obtain ⟨hb, hrest⟩ := List.forall_mem_cons.mp hnoise
    simp [absorb, stepByte_noise hidle hb, ih hrest]

/-- Settles O43: the first frame is whole with the second's leading byte, and leaves the rest to the idle filter. -/
theorem adjacentFixedFramesLoseTheSecond : Obligations.AdjacentFixedFramesLoseTheSecond :=
  fun a b0 b1 b2 b3 b4 b5 c0 c1 c2 c3 c4 c5 hidle h0 hnoise => by
    obtain ⟨hframes, hlabels, hposition⟩ := absorb_fixed hidle h0 b1 b2 b3 b4 b5 c0
    have hrest := noiseRunsAreDiscarded _ _ hposition hnoise
    have hwhole := absorb_append a [b0, b1, b2, b3, b4, b5, c0] [c1, c2, c3, c4, c5]
    rw [hrest, hframes, hlabels] at hwhole
    exact ⟨congrArg Absorbed.frames hwhole, congrArg Absorbed.labels hwhole⟩

/-- The first six bytes of a variable-class frame whose length byte is not 0. -/
theorem builds_variable {a : Assembly} {b0 n : Byte} (hidle : a.position = 0) (h0 : b0 ∈ varLeadBytes)
    (hn : 0 < n.toNat) (b1 b2 b3 b4 : Byte) : Builds a b0 (5 + n.toNat) [b0, b1, b2, b3, b4, n] := by
  have hheader := builds_header hidle (mem_leadBytes_of_mem_varLeadBytes h0) b1 b2 b3 b4
  have htap : thresholdAfter b0 6 [b0, b1, b2, b3, b4] n = 5 + n.toNat := if_pos ⟨rfl, h0⟩
  rw [← htap]
  exact hheader.store (by simp) n (by rw [htap]; simp; omega)

/-- All of a variable-class frame with `n <= 59` but its last byte is the frame in progress, and the last byte takes
`position` past the threshold. -/
theorem exists_builds_variable {a : Assembly} {b0 n : Byte} {params : List Byte} (hidle : a.position = 0)
    (h0 : b0 ∈ varLeadBytes) (hn : n.toNat ≤ 59) (hparams : params.length = n.toNat) (b1 b2 b3 b4 : Byte) :
    ∃ e pre last, [b0, b1, b2, b3, b4, n] ++ params = pre ++ [last] ∧ Builds a b0 e pre ∧ pre.length < 65 ∧
      thresholdAfter b0 e pre last < pre.length + 1 := by
  rcases List.eq_nil_or_concat params with rfl | ⟨init, last, rfl⟩
  · have hheader := builds_header hidle (mem_leadBytes_of_mem_varLeadBytes h0) b1 b2 b3 b4
    refine ⟨6, _, n, rfl, hheader, by simp, ?_⟩
    rw [thresholdAfter, if_pos ⟨rfl, h0⟩, ← hparams]
    simp
  · rw [List.length_concat] at hparams
    have hsix := builds_variable (n := n) hidle h0 (by omega) b1 b2 b3 b4
    refine ⟨5 + n.toNat, _, last, by rw [List.concat_eq_append, List.append_assoc],
      hsix.store_all init (.inl (by simp)) (by simp; omega) (by simp; omega), by simp; omega, ?_⟩
    rw [thresholdAfter, if_neg (by simp), List.length_append]
    simp
    omega

/-- The first bytes of a stream complete no frame that the stream does not. -/
theorem absorb_frames_of_prefix {a : Assembly} {xs ys : List Byte} (h : xs <+: ys) (hnone : (absorb a ys).frames = []) :
    (absorb a xs).frames = [] := by
  obtain ⟨zs, rfl⟩ := h
  rw [absorb_append] at hnone
  exact (List.append_eq_nil_iff.mp hnone).1

/-- Settles O41: the frame completes on the last byte (`Builds.complete`), and fewer bytes are the first bytes of
the frame in progress. -/
theorem variableFrameTakesItsWireLength : Obligations.VariableFrameTakesItsWireLength :=
  fun a b0 b1 b2 b3 b4 n params hidle h0 hn hparams => by
    obtain ⟨e, pre, last, hwire, hbuilds, hroom, hlt⟩ := exists_builds_variable hidle h0 hn hparams b1 b2 b3 b4
    have hlength : ([b0, b1, b2, b3, b4, n] ++ params).length = 6 + n.toNat := by
      rw [List.length_append, hparams]; rfl
    obtain ⟨hframes, hlabels, hposition⟩ := hbuilds.complete hroom last hlt
    intro wire
    rw [← hwire] at hframes hlabels hposition
    refine ⟨hframes, hlength, hlabels, hposition, fun k hk => absorb_frames_of_prefix ?_ hbuilds.frames⟩
    have hwire' : wire = pre ++ [last] := hwire
    rw [hwire', List.length_append] at hk
    rw [hwire', List.take_append_of_le_length (Nat.le_of_lt_succ hk)]
    exact List.take_prefix k pre

/-- Settles O42: with `n >= 60` the threshold is at least 65, so 65 bytes are stored and the next finds the buffer full. -/
theorem overlongFrameCostsSixtySixBytes : Obligations.OverlongFrameCostsSixtySixBytes :=
  fun a b0 b1 b2 b3 b4 n x rest hidle h0 hn hrest => by
    have hsix := builds_variable (n := n) hidle h0 (by omega) b1 b2 b3 b4
    have hbuilds := hsix.store_all rest (.inl (by simp)) (by simp [hrest]) (by simp [hrest]; omega)
    have hlength : ([b0, b1, b2, b3, b4, n] ++ rest).length = 65 := by simp [hrest]
    have hposition := hbuilds.inFrame.position
    rw [hlength] at hposition
    exact ⟨hbuilds.frames, hbuilds.labels, BitVec.eq_of_toNat_eq hposition, hbuilds.exhaust hlength x⟩

end Sys2Proof.Machine
end

section
/-! PROOFS. R139: the count of all bytes. -/

namespace Sys2Proof.Machine

/-- The label of a byte discarded while idle. -/
def isNoise (e : Event) : Bool := decide (∃ b : Byte, e = .noise b)

/-- The label of an over-long frame abandoned. -/
def isOversize (e : Event) : Bool := decide (∃ b : Byte, e = .oversize b)

@[simp] theorem isNoise_noise (b : Byte) : isNoise (.noise b) = true := by simp [isNoise]
@[simp] theorem isNoise_oversize (b : Byte) : isNoise (.oversize b) = false := by simp [isNoise]
@[simp] theorem isOversize_noise (b : Byte) : isOversize (.noise b) = false := by simp [isOversize]
@[simp] theorem isOversize_oversize (b : Byte) : isOversize (.oversize b) = true := by simp [isOversize]

/-- The bytes that frames and labels account for. -/
def accounted (frames : List (List Byte)) (labels : List Event) : Nat :=
  (frames.map List.length).sum + labels.countP isNoise + 66 * labels.countP isOversize

theorem accounted_append (frames frames' : List (List Byte)) (labels labels' : List Event) :
    accounted (frames ++ frames') (labels ++ labels') = accounted frames labels + accounted frames' labels' := by
  simp only [accounted, List.map_append, List.sum_append, List.countP_append]
  omega

/-- One byte more is in the frame in progress, in the frame it completes, noise, or the 66th of an over-long frame. -/
theorem stepByte_accounted {a : Assembly} (b : Byte) (h : a.position.toNat ≤ 65) :
    a.position.toNat + 1 =
        accounted (stepByte a b).frame.toList (stepByte a b).label.toList + (stepByte a b).asm.position.toNat ∧
      (stepByte a b).asm.position.toNat ≤ 65 := by
  rcases stepByte_cases a b with ⟨hidle, -, hstep⟩ | ⟨-, hroom, -, hstep⟩ | ⟨-, hroom, -, hstep⟩ | ⟨hfull, hstep⟩
  · rw [hstep]
    simp [accounted, hidle]
  · have hposition := stored_position (b := b) hroom
    rw [hstep]
    unfold maxFrame at hroom
    exact ⟨by simp [accounted, hposition], by simp only [hposition]; omega⟩
  · have hposition := stored_position (b := b) hroom
    rw [hstep]
    simp [accounted, frameBytes, hposition]
  · have hposition : a.position.toNat = 65 := Nat.le_antisymm h hfull
    rw [hstep]
    simp [accounted, hposition]

/-- Settles O44, by induction on the stream. -/
theorem everyByteIsAccountedFor : Obligations.EveryByteIsAccountedFor := fun a bytes h => by
  show a.position.toNat + bytes.length =
    accounted (absorb a bytes).frames (absorb a bytes).labels + (absorb a bytes).asm.position.toNat
  induction bytes generalizing a with
  | nil => simp [absorb, accounted]
  | cons b bytes ih =>
    obtain ⟨hfirst, hbound⟩ := stepByte_accounted b h
    have hrest := ih (stepByte a b).asm hbound
    simp only [absorb, accounted_append, List.length_cons]
    omega

end Sys2Proof.Machine
end

section
/-! PROOFS. R132, R134, R86: a stream pushed and drained in pieces. -/

namespace Sys2Proof.Machine

/-- One push of a piece that fits into an empty ring, and one drain of it, are `STEP` over the piece. -/
theorem push_then_drain (piece : List Byte) (s : State) (hempty : ringSize s.ring = 0) (hfits : piece.length ≤ 255) :
    ∃ t, runInstrs (pushSeq piece) s = some t ∧ (drain t).1 = (absorb s.asm piece).frames ∧
      heldBytes (drain t).2.ring = [] ∧ (drain t).2.asm = (absorb s.asm piece).asm := by
  obtain ⟨r, hrun, hheld, -⟩ := runInstrs_pushSeq piece s (by omega)
  rw [heldBytes_of_empty hempty, List.nil_append] at hheld
  obtain ⟨hframes, hdrained, hasm⟩ := drained_drain { s with ring := r }
  rw [hheld] at hframes hasm
  exact ⟨_, hrun, hframes, hdrained, hasm⟩

theorem feedPieces_eq_absorb (pieces : List (List Byte)) (s : State) (hempty : ringSize s.ring = 0)
    (hfits : ∀ piece ∈ pieces, piece.length ≤ 255) :
    ∃ frames t, feedPieces pieces s = some (frames, t) ∧ heldBytes t.ring = [] ∧
      frames = (absorb s.asm pieces.flatten).frames ∧ t.asm = (absorb s.asm pieces.flatten).asm := by
  induction pieces generalizing s with
  | nil => exact ⟨[], s, rfl, heldBytes_of_empty hempty, rfl, rfl⟩
  | cons piece pieces ih =>
    obtain ⟨hpiece, hpieces⟩ := List.forall_mem_cons.mp hfits
    obtain ⟨t, hrun, hframes, hheld, hasm⟩ := push_then_drain piece s hempty hpiece
    obtain ⟨frames, u, hrest, hheld', hframes', hasm'⟩ :=
      ih (drain t).2 (by rw [← heldBytes_length, hheld]; rfl) hpieces
    refine ⟨(drain t).1 ++ frames, u, by simp only [feedPieces, hrun, hrest, Option.map_some], hheld', ?_, ?_⟩
    · rw [List.flatten_cons, absorb_append, hframes, hframes', hasm]
    · rw [List.flatten_cons, absorb_append, hasm', hasm]

/-- Settles O38: the pieces and the whole give what `STEP` makes of the same bytes; for one variable-class frame that is the
frame (O41). -/
theorem splitStreamsJoin : Obligations.SplitStreamsJoin := fun pieces s hempty hfits => by
  obtain ⟨frames, t, hrun, hheld, hframes, hasm⟩ := feedPieces_eq_absorb pieces s hempty hfits
  refine ⟨frames, t, hrun, hheld, hframes, hasm, fun hwhole => ?_,
    fun b0 b1 b2 b3 b4 n params hidle h0 hn hparams hwire => ?_⟩
  · obtain ⟨u, hpush, hdrain, -, hasm'⟩ := push_then_drain pieces.flatten s hempty hwhole
    exact ⟨u, hpush, hdrain.trans hframes.symm, hasm'.trans hasm.symm⟩
  · rw [hframes, hwire]
    exact (variableFrameTakesItsWireLength s.asm b0 b1 b2 b3 b4 n params hidle h0 hn hparams).1

end Sys2Proof.Machine
end

section
/-! PROOFS. R38, R39, R50: what every step keeps. `step_next_cases` lists what a step can do to the ring and to the assembly
state; each clause of the invariant is kept by each of these. -/

namespace Sys2Proof.Machine

theorem head_lt_ringSlots (r : RingBuffer) : r.head.toNat < ringSlots := r.head.isLt

/-- What a `STEP` can do to `out`: nothing, or a store at a position below 65. -/
theorem stepByte_out (a : Assembly) (b : Byte) :
    (stepByte a b).asm.out = a.out ∨
      a.position.toNat < maxFrame ∧ (stepByte a b).asm.out = Memory.store a.out a.position.toNat b := by
  rcases stepByte_cases a b with ⟨-, -, h⟩ | ⟨-, hroom, -, h⟩ | ⟨-, hroom, -, h⟩ | ⟨-, h⟩ <;> rw [h]
  · exact .inl rfl
  · exact .inr ⟨hroom, stored_out a b⟩
  · exact .inr ⟨hroom, stored_out a b⟩
  · exact .inl rfl

/-- A step leaves the slots of the ring, writes the one at `head`, or forgets them all. -/
theorem step_slots {s t : State} (h : step s = .next t) :
    t.ring.slots = s.ring.slots ∨ (∃ b, t.ring.slots = Memory.store s.ring.slots s.ring.head.toNat b) ∨
      t.ring.slots = [] := by
  obtain ⟨hring, -⟩ := step_next_cases h
  rcases hring with h | h | ⟨b, -, h⟩ | ⟨b, h⟩ | h
  · exact .inl (by rw [h])
  · exact .inl (by rw [h, clearRing_slots])
  · exact .inr (.inl ⟨b, by rw [h, pushByte_slots]⟩)
  · exact .inl (by rw [(popByte_eq_some h).2.2])
  · exact .inr (.inr (by rw [h, forgetSlots_slots]))

/-- A step leaves `out`, writes the byte at a position below 65, or forgets it all. -/
theorem step_out {s t : State} (h : step s = .next t) :
    t.asm.out = s.asm.out ∨
      (∃ b, s.asm.position.toNat < maxFrame ∧ t.asm.out = Memory.store s.asm.out s.asm.position.toNat b) ∨
      t.asm.out = [] := by
  obtain ⟨-, hasm⟩ := step_next_cases h
  rcases hasm with h | h | ⟨b, h⟩ | h
  · exact .inl (by rw [h])
  · exact .inl (by rw [h, clearAssembly_out])
  · rw [h]
    rcases stepByte_out s.asm b with h | h
    · exact .inl h
    · exact .inr (.inl ⟨b, h⟩)
  · exact .inr (.inr (by rw [h, forgetOut_out]))

/-- Settles O50: a store keeps both properties of an array (`Memory.store_wf`, `Memory.store_within`), and an empty array has
them. -/
theorem stepKeepsTheArrays : Obligations.StepKeepsTheArrays := fun s t hs h => by
  obtain ⟨hringRising, hringInside, houtRising, houtInside⟩ := hs
  have hring : Memory.wf t.ring.slots ∧ Memory.within ringSlots t.ring.slots := by
    rcases step_slots h with h | ⟨b, h⟩ | h <;> rw [h]
    · exact ⟨hringRising, hringInside⟩
    · exact ⟨Memory.store_wf _ b hringRising, Memory.store_within b hringInside (head_lt_ringSlots _)⟩
    · exact ⟨.nil, nofun⟩
  have hout : Memory.wf t.asm.out ∧ Memory.within maxFrame t.asm.out := by
    rcases step_out h with h | ⟨b, hroom, h⟩ | h <;> rw [h]
    · exact ⟨houtRising, houtInside⟩
    · exact ⟨Memory.store_wf _ b houtRising, Memory.store_within b houtInside hroom⟩
    · exact ⟨.nil, nofun⟩
  exact ⟨hring.1, hring.2, hout.1, hout.2⟩

/-! ### The held slots -/

theorem RingBuffer.HeldWritten.of_empty {r : RingBuffer} (h : ringSize r = 0) : r.HeldWritten := fun k hk => by
  omega

theorem RingBuffer.HeldWritten.push {r : RingBuffer} (h : r.HeldWritten) (b : Byte) (hroom : ringFull r = false) :
    (pushByte r b).HeldWritten := fun k hk => by
  rw [pushByte_slots, pushByte_tail, Memory.lookup_store]
  split
  · rfl
  next hne =>
    rw [ringSize_push b hroom] at hk
    refine h k (Nat.lt_of_le_of_ne (Nat.le_of_lt_succ hk) ?_)
    rintro rfl
    have hhead := r.head.isLt
    have htail := r.tail.isLt
    simp only [ringSize, ringSlots] at hne
    omega

theorem RingBuffer.HeldWritten.pop {r r' : RingBuffer} {b : Byte} (h : r.HeldWritten)
    (hpop : popByte r = some (b, r')) : r'.HeldWritten := fun k hk => by
  have hsize := ringSize_of_popByte hpop
  obtain ⟨-, -, rfl⟩ := popByte_eq_some hpop
  have hnext := h (k + 1) (by omega)
  have hindex : (r.tail.toNat + (k + 1)) % ringSlots = ((nextIndex r.tail).toNat + k) % ringSlots := by
    rw [nextIndex_toNat, ringSlots]
    omega
  rwa [hindex] at hnext

theorem step_keeps_heldWritten {s t : State} (hs : s.ring.HeldWritten) (h : step s = .next t) : t.ring.HeldWritten := by
  obtain ⟨hring, -⟩ := step_next_cases h
  rcases hring with h | h | ⟨b, hroom, h⟩ | ⟨b, hpop⟩ | h
  · rwa [h]
  · rw [h]
    exact .of_empty (ringSize_clearRing _)
  · rw [h]
    exact hs.push b hroom
  · exact hs.pop hpop
  · rw [h]
    exact .of_empty ((ringSize_eq_zero_iff _).mpr rfl)

/-! ### The assembly state -/

/-- While idle only the range of the two registers is left of the invariant. -/
theorem Assembly.Inv.of_idle {a : Assembly} (hidle : a.position.toNat = 0)
    (hthreshold : 5 ≤ a.expectedLength.toNat ∧ a.expectedLength.toNat ≤ 260)
    (hopcode : a.leadingByte = 0x00 ∨ a.leadingByte ∈ leadBytes) : a.Inv where
  positionBound := by omega
  thresholdRange := hthreshold
  opcodeRange := hopcode
  opcodeIsFirst h := by omega
  headerThreshold h := by omega
  fixedThreshold h := by omega
  varThreshold h := by rw [hidle] at h; exact absurd h (by decide)
  notPassed h := by omega
  longIsVar h := by omega
  fullIsOverlong h := by rw [hidle] at h; exact absurd h (by decide)
  framed i h := by omega

theorem clearAssembly_inv (a : Assembly) : (clearAssembly a).Inv :=
  .of_idle rfl (by rw [clearAssembly_expectedLength]; decide) (.inl rfl)

theorem forgetOut_clearAssembly_inv (a : Assembly) : (forgetOut (clearAssembly a)).Inv :=
  .of_idle rfl (by rw [forgetOut_expectedLength, clearAssembly_expectedLength]; decide) (.inl rfl)

section
variable {a : Assembly} {b : Byte}

theorem stored_threshold_range (h : a.Inv) :
    5 ≤ (stored a b).expectedLength.toNat ∧ (stored a b).expectedLength.toNat ≤ 260 := by
  have hb := b.isLt
  have hrange := h.thresholdRange
  rcases stored_threshold_cases a b with he | he | he <;> omega

/-- The leading byte after a store is in `LEAD`: it was before, or the byte starts a frame. -/
theorem stored_leadingByte_mem (h : a.Inv) (hb : a.position = 0 → b ∈ leadBytes) :
    (stored a b).leadingByte ∈ leadBytes := by
  rw [stored_leadingByte]
  split
  next h0 => exact hb h0
  next h0 => exact (h.opcodeIsFirst (position_pos_iff.mpr h0)).1

theorem stored_headerThreshold (h : a.Inv) (hle : a.position.toNat + 1 ≤ 5) :
    (stored a b).expectedLength = expInit := by
  rw [stored_expectedLength]
  split
  · rfl
  next h0 =>
    rw [if_neg fun htap => by omega]
    exact h.headerThreshold (position_pos_iff.mpr h0) (Nat.le_of_succ_le hle)

theorem stored_fixedThreshold (h : a.Inv) (hfix : (stored a b).leadingByte ∈ fixLeadBytes) :
    (stored a b).expectedLength = expInit := by
  rw [stored_leadingByte] at hfix
  rw [stored_expectedLength]
  split
  · rfl
  next h0 =>
    rw [if_neg h0] at hfix
    rw [if_neg fun htap => (mem_fixLeadBytes_iff.mp hfix).2 htap.2]
    exact h.fixedThreshold (position_pos_iff.mpr h0) hfix

/-- Past the length byte the threshold is the one that the length byte, now or earlier, has set. -/
theorem stored_varThreshold (h : a.Inv) (hpast : 5 ≤ a.position.toNat)
    (hvar : (stored a b).leadingByte ∈ varLeadBytes) :
    (stored a b).expectedLength = extendedLength (outRead (stored a b) 5) := by
  have h0 := position_pos_iff.mp (show 0 < a.position.toNat by omega)
  rw [stored_leadingByte, if_neg h0] at hvar
  rw [stored_expectedLength, if_neg h0, outRead_stored]
  by_cases hp : a.position.toNat = 5
  · rw [if_pos ⟨hp, hvar⟩, if_pos hp.symm]
  · rw [if_neg fun htap => hp htap.1, if_neg (Ne.symm hp)]
    exact h.varThreshold (Nat.lt_of_le_of_ne hpast (Ne.symm hp)) hvar

/-- R39 (d) follows from (b) and (c): a frame of 7 bytes or more that has not completed has passed the threshold of a fixed
one. -/
theorem long_is_variable (hlong : 7 ≤ a.position.toNat) (hle : a.position.toNat ≤ a.expectedLength.toNat)
    (hlead : a.leadingByte ∈ leadBytes) (hfix : a.leadingByte ∈ fixLeadBytes → a.expectedLength = expInit)
    (hvar : a.leadingByte ∈ varLeadBytes → a.expectedLength = extendedLength (outRead a 5)) :
    a.leadingByte ∈ varLeadBytes ∧ a.expectedLength.toNat = 5 + (outRead a 5).toNat := by
  by_cases hv : a.leadingByte ∈ varLeadBytes
  · exact ⟨hv, by rw [hvar hv, extendedLength_toNat]⟩
  · rw [hfix (mem_fixLeadBytes_iff.mpr ⟨hlead, hv⟩)] at hle
    exact absurd (hlong.trans hle) (by decide)

/-- A store that does not complete the frame keeps the invariant. -/
theorem stored_inv (h : a.Inv) (hb : a.position = 0 → b ∈ leadBytes) (hroom : a.position.toNat < maxFrame)
    (hle : (stored a b).position.toNat ≤ (stored a b).expectedLength.toNat) : (stored a b).Inv := by
  have hposition := stored_position (b := b) hroom
  have hlead := stored_leadingByte_mem h hb
  have hvar (hpast : defaultLength ≤ (stored a b).position.toNat) :=
    stored_varThreshold (b := b) h (by rw [hposition] at hpast; exact Nat.le_of_succ_le_succ hpast)
  have hlong (h7 : 7 ≤ (stored a b).position.toNat) :=
    long_is_variable h7 hle hlead (stored_fixedThreshold h) (hvar (Nat.le_of_succ_le h7))
  exact {
    positionBound := by rw [hposition]; exact hroom
    thresholdRange := stored_threshold_range h
    opcodeRange := .inr hlead
    opcodeIsFirst := fun _ => ⟨hlead, by
      rw [outRead_stored, stored_leadingByte]
      by_cases h0 : a.position = 0
      · rw [if_pos h0, h0]; rfl
      · have hpos := position_pos_iff.mpr h0
        rw [if_neg h0, if_neg (Nat.ne_of_lt hpos), (h.opcodeIsFirst hpos).2]⟩
    headerThreshold := fun _ hle5 => stored_headerThreshold h (by rwa [hposition] at hle5)
    fixedThreshold := fun _ => stored_fixedThreshold h
    varThreshold := hvar
    notPassed := fun _ => hle
    longIsVar := fun h7 => by
      obtain ⟨hv, he⟩ := hlong h7
      exact ⟨hv, by omega⟩
    fullIsOverlong := fun hfull => by
      rw [maxFrame] at hfull
      obtain ⟨-, he⟩ := hlong (by omega)
      omega
    framed := fun i hi => by
      rw [stored_out, Memory.lookup_store]
      split
      · rfl
      next hne =>
        rw [hposition] at hi
        exact h.framed i (Nat.lt_of_le_of_ne (Nat.le_of_lt_succ hi) hne) }

theorem stepByte_inv (b : Byte) (h : a.Inv) : (stepByte a b).asm.Inv := by
  rcases stepByte_cases a b with ⟨-, -, hs⟩ | ⟨hb, hroom, hle, hs⟩ | ⟨hb, hroom, -, hs⟩ | ⟨-, hs⟩ <;> rw [hs]
  · exact h
  · exact stored_inv h hb hroom hle
  · exact .of_idle rfl (stored_threshold_range h) (.inr (stored_leadingByte_mem h hb))
  · exact .of_idle rfl h.thresholdRange (.inl rfl)

end

theorem step_keeps_assembly_inv {s t : State} (hs : s.asm.Inv) (h : step s = .next t) : t.asm.Inv := by
  obtain ⟨-, hasm⟩ := step_next_cases h
  rcases hasm with h | h | ⟨b, h⟩ | h <;> rw [h]
  · exact hs
  · exact clearAssembly_inv _
  · exact stepByte_inv b hs
  · exact forgetOut_clearAssembly_inv _

/-- Settles O49: the three parts of the invariant, each kept on its own. -/
theorem stepKeepsTheInvariant : Obligations.StepKeepsTheInvariant := fun s t hs h =>
  ⟨stepKeepsTheArrays s t hs.slots h, step_keeps_assembly_inv hs.assembly h, step_keeps_heldWritten hs.held h⟩

/-- Settles O48: nothing is held, nothing is written, and the reassembler is idle. -/
theorem resetMeetsTheInvariant : Obligations.ResetMeetsTheInvariant where
  slots := ⟨.nil, nofun, .nil, nofun⟩
  assembly := .of_idle rfl (by decide) (.inl rfl)
  held := .of_empty ringSize_reset

end Sys2Proof.Machine
end

section
/-! PROOFS. R20, R21, R24, R28, R51, R52, R55: what each instruction writes and what it leaves. -/

namespace Sys2Proof.Machine

/-- An iteration of `FEED` takes at most one byte off the ring, at `tail`. -/
theorem feedIteration_ring (s : State) : ∃ tail, (feedIteration s).ring = { s.ring with tail := tail } := by
  cases hpop : popByte s.ring with
  | none => exact ⟨s.ring.tail, by rw [feedIteration_of_empty hpop]⟩
  | some br =>
    obtain ⟨-, -, hr⟩ := popByte_eq_some (b := br.1) (r' := br.2) hpop
    exact ⟨nextIndex s.ring.tail, by rw [feedIteration_of_pop hpop, consumeByte_ring, hr]⟩

/-- Settles O53: per instruction, what its equation does not mention is unchanged. -/
theorem writersOfEachElement : Obligations.WritersOfEachElement := fun i s t h => by
  cases i with
  | ringReset =>
    cases h
    simp
  | ringPush b =>
    rw [exec_ringPush] at h
    split at h <;> cases h <;> simp
  | ringPop =>
    cases hpop : popByte s.ring with
    | none =>
      rw [exec_ringPop_of_empty hpop] at h
      cases h
      simp
    | some br =>
      rw [exec_ringPop_of_pop hpop] at h
      cases h
      simp [(popByte_eq_some hpop).2.2]
  | ringSize =>
    cases h
    simp
  | feed =>
    cases h
    obtain ⟨tail, hring⟩ := feedIteration_ring s
    simp [hring]
  | asmReset =>
    cases h
    simp
  | reservedOp low => cases h
  | _ =>
    cases h
    simp [encode]

/-- Settles O54. -/
theorem nonStoringOperationsFrame : Obligations.NonStoringOperationsFrame := fun i s h => by
  rcases h with rfl | rfl | rfl | rfl
  · exact ⟨_, exec_ringReset s, by simp⟩
  · cases hpop : popByte s.ring with
    | none => exact ⟨_, exec_ringPop_of_empty hpop, by simp⟩
    | some br => exact ⟨_, exec_ringPop_of_pop hpop, by simp [(popByte_eq_some hpop).2.2, ringRead]⟩
  · exact ⟨_, exec_ringSize s, by simp⟩
  · exact ⟨_, rfl, by simp [outRead]⟩

/-- `STEP` writes `out` at `position` only, and only when it notes no label; at position 65 or above it does not. -/
theorem outRead_stepByte (a : Assembly) (b : Byte) :
    (∀ j, j ≠ a.position.toNat → outRead (stepByte a b).asm j = outRead a j) ∧
      (65 ≤ a.position.toNat → ∀ j, outRead (stepByte a b).asm j = outRead a j) ∧
      ((stepByte a b).label ≠ none → ∀ j, outRead (stepByte a b).asm j = outRead a j) := by
  by_cases hb : a.position = 0 → b ∈ leadBytes
  · by_cases hroom : a.position.toNat < maxFrame
    · have hstep := stepByte_stored hb hroom
      refine ⟨fun j hj => ?_, fun hfull => absurd hroom (Nat.not_lt.mpr hfull), fun hlabel => ?_⟩
      · rw [hstep, outRead_completionClause, outRead_stored, if_neg hj]
      · exact absurd (by rw [hstep, completionClause_label]) hlabel
    · have hstep := stepByte_exhausted (b := b) (Nat.not_lt.mp hroom)
      simp [hstep, outRead]
  · obtain ⟨hidle, hb⟩ := Classical.not_imp.mp hb
    simp [stepByte_noise hidle hb]

/-- The frame of a consumed byte, from what `STEP` does to `out`. -/
theorem consumeByte_frame (b : Byte) (s : State) :
    (∀ j, j ≠ s.asm.position.toNat → outRead (consumeByte b s).asm j = outRead s.asm j) ∧
      (65 ≤ s.asm.position.toNat → ∀ j, outRead (consumeByte b s).asm j = outRead s.asm j) ∧
      ((consumeByte b s).events ≠ s.events → ∀ j, outRead (consumeByte b s).asm j = outRead s.asm j) := by
  obtain ⟨helse, hfull, hlabel⟩ := outRead_stepByte s.asm b
  rw [consumeByte_asm, consumeByte_events]
  refine ⟨helse, hfull, fun hevents => hlabel fun hnone => hevents ?_⟩
  rw [hnone, Option.toList_none, List.append_nil]

/-- Settles O55: a `FEED` is its pop and the consumed byte, a leading byte's row the consumed byte alone. -/
theorem reassemblerFrame : Obligations.ReassemblerFrame := fun i s h => by
  rcases h with rfl | ⟨b, hcode⟩
  · refine ⟨_, exec_feed s, ?_⟩
    cases hpop : popByte s.ring with
    | none => simp [feedIteration_of_empty hpop]
    | some br =>
      obtain ⟨-, -, hr⟩ := popByte_eq_some (b := br.1) (r' := br.2) hpop
      obtain ⟨helse, hfull, hlabel⟩ := consumeByte_frame br.1 { s with ring := br.2 }
      rw [feedIteration_of_pop hpop]
      exact ⟨fun j => by rw [consumeByte_ring, hr]; rfl, by rw [consumeByte_ring, hr], fun hne => absurd rfl hne,
        helse, hfull, hlabel, by simp⟩
  · obtain ⟨helse, hfull, hlabel⟩ := consumeByte_frame b s
    exact ⟨_, exec_of_encode_frameByte hcode s, by simp, by simp, by simp, helse, hfull, hlabel, by simp⟩

end Sys2Proof.Machine
end

section
/-! PROOFS. R150, R151, R160, R162, R184: an instruction's effect depends on the ring, the assembly state and the busy flag
alone, and the choice of a turn on the turns, the ports and the busy flag alone. -/

namespace Sys2Proof.Machine

/-- The effect of a byte that a `FEED` consumes depends on the byte and the assembly state alone. -/
theorem consumeByte_effect (b : Byte) (a : Assembly) :
    ∃ a' f results labels, results.length ≤ 1 ∧ ∀ u : State, u.asm = a → consumeByte b u = { u with
      asm := a', feeding := f, delivered := u.delivered ++ results, events := u.events ++ labels } := by
  refine ⟨(stepByte a b).asm, (stepByte a b).frame.isNone,
    (stepByte a b).frame.toList.map fun f => feedResult (some f), (stepByte a b).label.toList, ?_, fun u ha => ?_⟩
  · cases (stepByte a b).frame <;> simp
  · rw [consumeByte_eq, ha]

/-- The effect of a well-formed instruction, the same from every state that agrees with `s` on what it reads: results and
labels are appended, the ports and the turns are neither read nor written. -/
theorem exec_effect {i : Instr} (h : i.wellFormed = true) (s : State) :
    ∃ r a f results labels, results.length ≤ 1 ∧
      ∀ u : State, u.ring = s.ring → u.asm = s.asm → u.feeding = s.feeding → exec i u = .next { u with
        ring := r, asm := a, feeding := f, delivered := u.delivered ++ results, events := u.events ++ labels } := by
  cases i with
  | ringReset =>
    refine ⟨clearRing s.ring, s.asm, s.feeding, [], [], by simp, fun u hr ha hf => ?_⟩
    simp [exec_ringReset, ← hr, ← ha, ← hf]
  | ringPush b =>
    cases hfull : ringFull s.ring with
    | true =>
      refine ⟨s.ring, s.asm, s.feeding, [], [.overflow b], by simp, fun u hr ha hf => ?_⟩
      rw [exec_ringPush_of_full (hr ▸ hfull)]
      simp [note, ← hr, ← ha, ← hf]
    | false =>
      refine ⟨pushByte s.ring b, s.asm, s.feeding, [], [], by simp, fun u hr ha hf => ?_⟩
      rw [exec_ringPush_of_room (hr ▸ hfull)]
      simp [← hr, ← ha, ← hf]
  | ringPop =>
    cases hpop : popByte s.ring with
    | none =>
      refine ⟨s.ring, s.asm, s.feeding, [popResult none], [], by simp, fun u hr ha hf => ?_⟩
      rw [exec_ringPop_of_empty (hr ▸ hpop)]
      simp [deliver, ← hr, ← ha, ← hf]
    | some br =>
      refine ⟨br.2, s.asm, s.feeding, [popResult (some br.1)], [], by simp, fun u hr ha hf => ?_⟩
      rw [exec_ringPop_of_pop (b := br.1) (r := br.2) (hr ▸ hpop)]
      simp [deliver, ← ha, ← hf]
  | ringSize =>
    refine ⟨s.ring, s.asm, s.feeding, [sizeResult (ringSize s.ring)], [], by simp, fun u hr ha hf => ?_⟩
    simp [exec_ringSize, deliver, ← hr, ← ha, ← hf]
  | feed =>
    cases hpop : popByte s.ring with
    | none =>
      refine ⟨s.ring, s.asm, false, [.feed 0 []], [.starved], by simp, fun u hr ha _ => ?_⟩
      rw [exec_feed, feedIteration_of_empty (hr ▸ hpop), ← hr, ← ha]
    | some br =>
      obtain ⟨a, f, results, labels, hlength, hconsume⟩ := consumeByte_effect br.1 s.asm
      refine ⟨br.2, a, f, results, labels, hlength, fun u hr ha _ => ?_⟩
      rw [exec_feed_of_pop (b := br.1) (r := br.2) (hr ▸ hpop), hconsume { u with ring := br.2 } ha]
  | asmReset =>
    refine ⟨s.ring, clearAssembly s.asm, s.feeding, [], [], by simp, fun u hr ha hf => ?_⟩
    simp [exec, execAsmReset, ← hr, ← ha, ← hf]
  | reservedOp low => cases h
  | _ =>
    obtain ⟨a, f, results, labels, hlength, hconsume⟩ := consumeByte_effect _ s.asm
    refine ⟨s.ring, a, f, results, labels, hlength, fun u hr ha _ => ?_⟩
    rw [exec_of_encode_frameByte rfl, hconsume u ha, ← hr]

theorem wellFormed_of_exec_next {i : Instr} {s t : State} (h : exec i s = .next t) : i.wellFormed = true := by
  rw [← Bool.not_eq_false]
  intro hill
  rw [exec_of_illFormed hill] at h
  cases h

/-- Two states with the same turns, the same words on the ports and the same busy flag. -/
structure SameFront (s u : State) : Prop where
  schedule : u.schedule = s.schedule
  producerPort : u.producerPort = s.producerPort
  consumerPort : u.consumerPort = s.consumerPort
  feeding : u.feeding = s.feeding

theorem SameFront.refl (s : State) : SameFront s s := ⟨rfl, rfl, rfl, rfl⟩

/-- `s` after a turn and perhaps a word have been taken. -/
def State.withFront (s : State) (turns : List Turn) (producerWords consumerWords : List CmdWord) : State :=
  { s with schedule := turns, producerPort := producerWords, consumerPort := consumerWords }

theorem SameFront.withTurns {s u : State} (h : SameFront s u) (turns : List Turn) :
    { u with schedule := turns } = u.withFront turns s.producerPort s.consumerPort := by
  rw [State.withFront, ← h.producerPort, ← h.consumerPort]

theorem SameFront.resetRefusal_eq {s u : State} (h : SameFront s u) (p c : Bool) :
    resetRefusal p c u = resetRefusal p c s := by
  rw [resetRefusal, resetRefusal, h.producerPort, h.consumerPort, h.feeding]

/-- What a turn comes to, the same from every state with the same front. -/
inductive TurnComesTo (s : State) : Prop where
  | refusal (r : Refusal) (h : ∀ u, SameFront s u → step u = .refused r)
  | nothing (turns : List Turn) (h : ∀ u, SameFront s u → step u = .next (u.withFront turns s.producerPort s.consumerPort))
  | command (i : Instr) (turns : List Turn) (producerWords consumerWords : List CmdWord)
      (h : ∀ u, SameFront s u → step u = exec i (u.withFront turns producerWords consumerWords))
  | reset (p c : Bool) (turns : List Turn)
      (h : ∀ u, SameFront s u → step u = .next (hardwareReset p c { u with schedule := turns }))

/-- A word that its port refuses comes to a refusal, any other to a command. -/
theorem outcome_fetchCommand (p : Port) (w : CmdWord) :
    (∃ r, ∀ s, (fetchCommand p w s).outcome = .refused r) ∨
      (decodeCommand w).acceptedOn p = true ∧ ∀ s, (fetchCommand p w s).outcome = exec (decodeCommand w) s := by
  cases hr : refusalOn p w with
  | some r => exact .inl ⟨r, outcome_of_refusalOn hr⟩
  | none =>
    have haccepted := (refusalOn_eq_none_iff p w).mp hr
    exact .inr ⟨haccepted, outcome_of_taken (decodeCommandAt_of_acceptedOn haccepted)⟩

theorem turnComesTo (s : State) : TurnComesTo s := by
  match hturn : s.schedule with
  | [] =>
    refine .nothing [] fun u hu => ?_
    rw [step_of_no_turn (hu.schedule.trans hturn), ← hu.withTurns, ← hturn, ← hu.schedule]
  | .producer :: turns =>
    match hport : s.producerPort with
    | [] =>
      refine .nothing turns fun u hu => ?_
      rw [step_of_idle_producer (hu.schedule.trans hturn) (hu.producerPort.trans hport), hu.withTurns]
    | w :: ws =>
      have hstep (u : State) (hu : SameFront s u) :=
        step_of_producer_word (hu.schedule.trans hturn) (hu.producerPort.trans hport)
      rcases outcome_fetchCommand .producer w with ⟨r, hr⟩ | ⟨-, hrun⟩
      · exact .refusal r fun u hu => (hstep u hu).trans (hr _)
      · refine .command (decodeCommand w) turns ws s.consumerPort fun u hu => ?_
        rw [hstep u hu, hrun, State.withFront, ← hu.consumerPort]
  | .consumer :: turns =>
    match hbusy : s.feeding with
    | true =>
      refine .command .feed turns s.producerPort s.consumerPort fun u hu => ?_
      rw [step_of_busy_consumer (hu.schedule.trans hturn) (hu.feeding.trans hbusy), hu.withTurns]
    | false =>
      match hport : s.consumerPort with
      | [] =>
        refine .nothing turns fun u hu => ?_
        rw [step_of_idle_consumer (hu.schedule.trans hturn) (hu.consumerPort.trans hport) (hu.feeding.trans hbusy),
          hu.withTurns]
      | w :: ws =>
        have hstep (u : State) (hu : SameFront s u) :=
          step_of_consumer_word (hu.schedule.trans hturn) (hu.feeding.trans hbusy) (hu.consumerPort.trans hport)
        rcases outcome_fetchCommand .consumer w with ⟨r, hr⟩ | ⟨-, hrun⟩
        · exact .refusal r fun u hu => (hstep u hu).trans (hr _)
        · refine .command (decodeCommand w) turns s.producerPort ws fun u hu => ?_
          rw [hstep u hu, hrun, State.withFront, ← hu.producerPort]
  | .hardwareReset p c :: turns =>
    match hr : resetRefusal p c s with
    | some r =>
      exact .refusal r fun u hu =>
        step_of_refused_hardwareReset (hu.schedule.trans hturn) ((hu.resetRefusal_eq p c).trans hr)
    | none =>
      exact .reset p c turns fun u hu =>
        step_of_hardwareReset (hu.schedule.trans hturn) ((hu.resetRefusal_eq p c).trans hr)

/-- Settles O56: an instruction appends at most one result (`exec_effect`), any other turn none. -/
theorem deliveredResultsStand : Obligations.DeliveredResultsStand := fun s t h => by
  have hnone : t.delivered = s.delivered → ∃ more, t.delivered = s.delivered ++ more ∧ more.length ≤ 1 :=
    fun hsame => ⟨[], by simp [hsame], Nat.zero_le 1⟩
  rcases turnComesTo s with ⟨r, hstep⟩ | ⟨turns, hstep⟩ | ⟨i, turns, ps, cs, hstep⟩ | ⟨p, c, turns, hstep⟩ <;>
    rw [hstep s (.refl s)] at h
  · cases h
  · cases h
    exact hnone rfl
  · obtain ⟨r, a, f, results, labels, hlength, hexec⟩ :=
      exec_effect (wellFormed_of_exec_next h) (s.withFront turns ps cs)
    rw [hexec _ rfl rfl rfl] at h
    cases h
    exact ⟨results, rfl, hlength⟩
  · cases h
    exact hnone rfl

/-- Settles O57: no turn and no instruction reads the labels, so both states do the same. -/
theorem labelsAreUnobservable : Obligations.LabelsAreUnobservable := fun s labels t h => by
  have hfront : SameFront s { s with events := labels } := ⟨rfl, rfl, rfl, rfl⟩
  rcases turnComesTo s with ⟨r, hstep⟩ | ⟨turns, hstep⟩ | ⟨i, turns, ps, cs, hstep⟩ | ⟨p, c, turns, hstep⟩ <;>
    rw [hstep s (.refl s)] at h <;> rw [hstep _ hfront]
  · cases h
  · cases h
    exact ⟨_, rfl, rfl⟩
  · obtain ⟨r, a, f, results, more, -, hexec⟩ := exec_effect (wellFormed_of_exec_next h) (s.withFront turns ps cs)
    rw [hexec _ rfl rfl rfl] at h
    cases h
    exact ⟨_, hexec _ rfl rfl rfl, rfl⟩
  · cases h
    exact ⟨_, rfl, rfl⟩

end Sys2Proof.Machine
end

section
/-! PROOFS. R150, R160, R162: agents that keep to their ports' commands never stop the block, and the producer touches
nothing but the ring and its own port. -/

namespace Sys2Proof.Machine

theorem exec_keeps_portsLegal {i : Instr} (hwf : i.wellFormed = true) {s : State} (h : s.PortsLegal) :
    ∃ t, exec i s = .next t ∧ t.PortsLegal := by
  obtain ⟨r, a, f, results, labels, -, hexec⟩ := exec_effect hwf s
  exact ⟨_, hexec s rfl rfl rfl, h⟩

/-- Taking the first word of a port leaves the others, and an accepted word runs. -/
theorem step_keeps_portsLegal {s : State} (h : s.PortsLegal) : ∃ t, step s = .next t ∧ t.PortsLegal := by
  obtain ⟨hproducer, hconsumer⟩ := id h
  match hturn : s.schedule with
  | [] => exact ⟨s, step_of_no_turn hturn, h⟩
  | .producer :: turns =>
    match hport : s.producerPort with
    | [] => exact ⟨_, step_of_idle_producer hturn hport, h⟩
    | w :: ws =>
      rw [hport] at hproducer
      obtain ⟨hw, hws⟩ := List.forall_mem_cons.mp hproducer
      rw [step_of_producer_word hturn hport, outcome_of_taken (decodeCommandAt_of_acceptedOn hw)]
      exact exec_keeps_portsLegal (wellFormed_of_acceptedOn hw) ⟨hws, hconsumer⟩
  | .consumer :: turns =>
    match hbusy : s.feeding with
    | true =>
      rw [step_of_busy_consumer hturn hbusy]
      exact exec_keeps_portsLegal rfl h
    | false =>
      match hport : s.consumerPort with
      | [] => exact ⟨_, step_of_idle_consumer hturn hport hbusy, h⟩
      | w :: ws =>
        rw [hport] at hconsumer
        obtain ⟨hw, hws⟩ := List.forall_mem_cons.mp hconsumer
        rw [step_of_consumer_word hturn hbusy hport, outcome_of_taken (decodeCommandAt_of_acceptedOn hw)]
        exact exec_keeps_portsLegal (wellFormed_of_acceptedOn hw) ⟨hproducer, hws⟩
  | .hardwareReset p c :: turns =>
    have hlegal : resetRefusal p c s = none := (resetRefusal_eq_none_iff p c s).mpr
      ⟨fun _ w hw => hproducer w (List.mem_of_mem_head? hw), fun _ _ w hw => hconsumer w (List.mem_of_mem_head? hw)⟩
    refine ⟨_, step_of_hardwareReset hturn hlegal, fun w hw => hproducer w ?_, fun w hw => hconsumer w ?_⟩
    · cases p
      · exact hw
      · exact List.mem_of_mem_tail hw
    · simp only [hardwareReset] at hw
      split at hw
      · exact List.mem_of_mem_tail hw
      · exact hw

/-- Settles O51, by induction on the number of steps. -/
theorem runsWithinRightsNeverStop : Obligations.RunsWithinRightsNeverStop := fun k => by
  induction k with
  | zero => exact fun s h => ⟨s, rfl, h⟩
  | succ k ih =>
    intro s h
    obtain ⟨t, hstep, ht⟩ := step_keeps_portsLegal h
    obtain ⟨u, hrun, hu⟩ := ih t ht
    exact ⟨u, (core_run_succ k hstep).trans hrun, hu⟩

/-- What a push can do, whether there is room or not. -/
theorem exec_ringPush_frame {b : Byte} {s t : State} (h : exec (.ringPush b) s = .next t) :
    (∀ j, j ≠ s.ring.head.toNat → ringRead t.ring j = ringRead s.ring j) ∧ t.ring.tail = s.ring.tail ∧
      ∃ r labels, t = { s with ring := r, events := labels } := by
  cases hfull : ringFull s.ring with
  | true =>
    rw [exec_ringPush_of_full hfull] at h
    cases h
    exact ⟨fun _ _ => rfl, rfl, _, _, rfl⟩
  | false =>
    rw [exec_ringPush_of_room hfull] at h
    cases h
    exact ⟨fun j hj => by rw [ringRead_push, if_neg hj], rfl, _, _, rfl⟩

/-- Settles O52: the only command that the producer port takes is a push. -/
theorem producerTouchesOnlyTheRing : Obligations.ProducerTouchesOnlyTheRing := fun s t rest hturn h => by
  match hport : s.producerPort with
  | [] =>
    rw [step_of_idle_producer hturn hport] at h
    cases h
    exact ⟨rfl, rfl, rfl, rfl, rfl, rfl, fun _ _ => rfl⟩
  | w :: ws =>
    rw [step_of_producer_word hturn hport] at h
    rcases outcome_fetchCommand .producer w with ⟨r, hr⟩ | ⟨haccepted, hrun⟩
    · rw [hr] at h
      cases h
    · obtain ⟨b, hb⟩ : ∃ b, decodeCommand w = .ringPush b := by
        generalize decodeCommand w = i at haccepted
        cases i with
        | ringPush b => exact ⟨b, rfl⟩
        | _ => cases haccepted
      rw [hrun, hb] at h
      obtain ⟨hread, htail, r, labels, rfl⟩ := exec_ringPush_frame h
      exact ⟨rfl, htail, rfl, rfl, rfl, rfl, hread⟩

end Sys2Proof.Machine
end

section
/-! PROOFS. R42, R43, R131, R171: the values after the resets, each by unfolding one definition of the model. -/

namespace Sys2Proof.Machine

/-- Settles O2. -/
theorem resetLeavesTheReassemblerIdle : Obligations.ResetLeavesTheReassemblerIdle := ⟨rfl, rfl, rfl⟩

/-- Settles O33: `clearAssembly` writes the three registers. -/
theorem asmResetAbandonsTheFrame : Obligations.AsmResetAbandonsTheFrame := fun _ => rfl

/-- Settles O3: the ring of size 0 has no byte for a pop or for `FEED`. -/
theorem resetAnswersEmpty : Obligations.ResetAnswersEmpty := by
  have hnone : popByte State.reset.ring = none := (popByte_eq_none_iff _).mpr ringSize_reset
  refine ⟨?_, ?_, ?_⟩
  · rw [exec_ringSize, ringSize_reset]
    rfl
  · rw [exec_ringPop_of_empty hnone]
    rfl
  · rw [exec_feed, feedIteration_of_empty hnone]
    rfl

end Sys2Proof.Machine
end

section
/-! PROOFS. R43, R126, R131: while idle the threshold and the leading byte are stale, and nothing observes them. -/

namespace Sys2Proof.Machine

/-- The same state with another threshold and leading byte. -/
def Assembly.stale (a : Assembly) (e : BitVec 9) (l : Byte) : Assembly := { a with expectedLength := e, leadingByte := l }

/-- The same state, its assembly state with another threshold and leading byte. -/
def State.stale (s : State) (e : BitVec 9) (l : Byte) : State := { s with asm := s.asm.stale e l }

/-- Two states that no step can tell apart: they are equal, or both idle and differ in the stale registers only. -/
def SameButStale (t u : State) : Prop :=
  u = t ∨ t.asm.position = 0 ∧ ∃ e l, u = t.stale e l

/-- A frame start overwrites both registers, a byte that is no frame start changes neither. -/
theorem consumeByte_stale {s : State} (hidle : s.asm.position = 0) (b : Byte) (e : BitVec 9) (l : Byte) :
    SameButStale (consumeByte b s) (consumeByte b (s.stale e l)) := by
  have hidle' : (s.stale e l).asm.position = 0 := hidle
  by_cases hb : b ∈ leadBytes
  · have hstored : stored (s.stale e l).asm b = stored s.asm b := by
      rw [stored_of_idle hidle', stored_of_idle hidle]
      rfl
    left
    rw [consumeByte_of_start hidle' hb, consumeByte_of_start hidle hb, hstored]
    rfl
  · right
    rw [consumeByte_of_noise hidle' hb, consumeByte_of_noise hidle hb]
    exact ⟨hidle, e, l, rfl⟩

/-- The ring operations do not see the assembly state. -/
theorem exec_ringOp_withAsm {i : Instr} {s t : State} (hop : isRingOp i = true) (h : exec i s = .next t) (a : Assembly) :
    t.asm = s.asm ∧ exec i { s with asm := a } = .next { t with asm := a } := by
  cases i with
  | ringReset =>
    cases h
    exact ⟨rfl, rfl⟩
  | ringPush b =>
    cases hfull : ringFull s.ring with
    | true =>
      rw [exec_ringPush_of_full hfull] at h
      cases h
      exact ⟨rfl, exec_ringPush_of_full hfull⟩
    | false =>
      rw [exec_ringPush_of_room hfull] at h
      cases h
      exact ⟨rfl, exec_ringPush_of_room hfull⟩
  | ringPop =>
    cases hpop : popByte s.ring with
    | none =>
      rw [exec_ringPop_of_empty hpop] at h
      cases h
      exact ⟨rfl, exec_ringPop_of_empty hpop⟩
    | some br =>
      rw [exec_ringPop_of_pop hpop] at h
      cases h
      exact ⟨rfl, exec_ringPop_of_pop hpop⟩
  | ringSize =>
    cases h
    exact ⟨rfl, rfl⟩
  | _ => cases hop

theorem exec_stale {i : Instr} {s t : State} (hidle : s.asm.position = 0) (h : exec i s = .next t) (e : BitVec 9)
    (l : Byte) : ∃ u, exec i (s.stale e l) = .next u ∧ SameButStale t u := by
  have hring (hop : isRingOp i = true) : ∃ u, exec i (s.stale e l) = .next u ∧ SameButStale t u := by
    obtain ⟨hasm, hexec⟩ := exec_ringOp_withAsm hop h (s.asm.stale e l)
    exact ⟨_, hexec, .inr ⟨by rw [hasm, hidle], e, l, by rw [State.stale, hasm]⟩⟩
  cases i with
  | ringReset => exact hring rfl
  | ringPush b => exact hring rfl
  | ringPop => exact hring rfl
  | ringSize => exact hring rfl
  | feed =>
    cases hpop : popByte s.ring with
    | none =>
      have hpop' : popByte (s.stale e l).ring = none := hpop
      rw [exec_feed, feedIteration_of_empty hpop] at h
      cases h
      rw [exec_feed, feedIteration_of_empty hpop']
      exact ⟨_, rfl, .inr ⟨hidle, e, l, rfl⟩⟩
    | some br =>
      have hpop' : popByte (s.stale e l).ring = some (br.1, br.2) := hpop
      rw [exec_feed_of_pop (b := br.1) (r := br.2) hpop] at h
      cases h
      exact ⟨_, exec_feed_of_pop hpop', consumeByte_stale (s := { s with ring := br.2 }) hidle br.1 e l⟩
  | asmReset =>
    cases h
    exact ⟨_, rfl, .inl rfl⟩
  | reservedOp low => cases h
  | _ =>
    cases h
    exact ⟨_, rfl, consumeByte_stale hidle _ e l⟩

/-- Settles O58: what a turn comes to does not depend on the assembly state (`turnComesTo`), and what it runs keeps the two
states indistinguishable. -/
theorem staleThresholdAndOpcodeAreUnobservable : Obligations.StaleThresholdAndOpcodeAreUnobservable :=
  fun s e l t hidle h => by
    have hfront : SameFront s (s.stale e l) := ⟨rfl, rfl, rfl, rfl⟩
    obtain ⟨u, hu, hsame⟩ : ∃ u, step (s.stale e l) = .next u ∧ SameButStale t u := by
      rcases turnComesTo s with ⟨r, hstep⟩ | ⟨turns, hstep⟩ | ⟨i, turns, ps, cs, hstep⟩ | ⟨p, c, turns, hstep⟩ <;>
        rw [hstep s (.refl s)] at h <;> rw [hstep _ hfront]
      · cases h
      · cases h
        exact ⟨_, rfl, .inr ⟨hidle, e, l, rfl⟩⟩
      · exact exec_stale (s := s.withFront turns ps cs) hidle h e l
      · cases h
        exact ⟨_, rfl, .inl rfl⟩
    refine ⟨u, hu, ?_⟩
    rcases hsame with heq | ⟨hidle', e', l', rfl⟩
    · exact .inl heq
    · exact .inr ⟨hidle', rfl⟩

end Sys2Proof.Machine
end

section
/-! PROOFS. R39 (f), R41, R44: what unwritten slots hold makes no difference, since every slot that is read has been
written. -/

namespace Sys2Proof.Machine

/-- The same ring with other contents of its unwritten slots. -/
def RingBuffer.refill (r : RingBuffer) (f : Nat) : RingBuffer := { r with fill := f }

/-- The same assembly state with other contents of its unwritten slots. -/
def Assembly.refill (a : Assembly) (g : Nat) : Assembly := { a with fill := g }

/-- The same state with other contents of its unwritten slots. -/
def State.refill (s : State) (f g : Nat) : State := { s with ring := s.ring.refill f, asm := s.asm.refill g }

theorem ringRead_refill {r : RingBuffer} {j : Nat} (h : (Memory.lookup r.slots j).isSome) (f : Nat) :
    ringRead (r.refill f) j = ringRead r j := by
  obtain ⟨v, hv⟩ := Option.isSome_iff_exists.mp h
  simp [ringRead, RingBuffer.refill, hv]

theorem outRead_refill {a : Assembly} {j : Nat} (h : (Memory.lookup a.out j).isSome) (g : Nat) :
    outRead (a.refill g) j = outRead a j := by
  obtain ⟨v, hv⟩ := Option.isSome_iff_exists.mp h
  simp [outRead, Assembly.refill, hv]

/-- A pop reads the slot at `tail`, which is held. -/
theorem popByte_refill {r : RingBuffer} (h : r.HeldWritten) (f : Nat) :
    popByte (r.refill f) = (popByte r).map fun br => (br.1, br.2.refill f) := by
  by_cases hsize : ringSize r = 0
  · rw [(popByte_eq_none_iff r).mpr hsize]
    exact (popByte_eq_none_iff (r.refill f)).mpr hsize
  · have htail := h 0 (Nat.pos_of_ne_zero hsize)
    rw [Nat.add_zero, ringSlots, Nat.mod_eq_of_lt r.tail.isLt] at htail
    rw [popByte_of_nonempty hsize, popByte_of_nonempty (r := r.refill f) hsize, Option.map_some]
    exact congrArg some (Prod.ext (ringRead_refill htail f) rfl)

theorem stored_refill (a : Assembly) (b : Byte) (g : Nat) : stored (a.refill g) b = (stored a b).refill g := by
  by_cases h0 : a.position = 0
  · rw [stored_of_idle h0, stored_of_idle (a := a.refill g) h0]
    rfl
  · rw [stored_of_inside h0, stored_of_inside (a := a.refill g) h0]
    rfl

/-- The completed frame reads slots below `position`, all of which have been written. -/
theorem stepByte_refill {a : Assembly} (h : a.Inv) (b : Byte) (g : Nat) :
    stepByte (a.refill g) b = { stepByte a b with asm := (stepByte a b).asm.refill g } := by
  by_cases hb : a.position = 0 → b ∈ leadBytes
  · by_cases hroom : a.position.toNat < 65
    · by_cases hlt : (stored a b).expectedLength.toNat < a.position.toNat + 1
      · have hframe : frameBytes (a.refill g) a.position.toNat = frameBytes a a.position.toNat :=
          List.map_congr_left fun k hk => outRead_refill (h.framed k (List.mem_range.mp hk)) g
        rw [stepByte_complete hb hroom hlt,
          stepByte_complete (a := a.refill g) hb hroom (by rw [stored_refill]; exact hlt), stored_refill,
          show (a.refill g).position = a.position from rfl, hframe]
        rfl
      · have hle := Nat.not_lt.mp hlt
        rw [stepByte_continue hb hroom hle,
          stepByte_continue (a := a.refill g) hb hroom (by rw [stored_refill]; exact hle), stored_refill]
    · have hfull := Nat.not_lt.mp hroom
      rw [stepByte_exhausted hfull, stepByte_exhausted (a := a.refill g) hfull]
      rfl
  · obtain ⟨hidle, hb⟩ := Classical.not_imp.mp hb
    rw [stepByte_noise hidle hb, stepByte_noise (a := a.refill g) hidle hb]

theorem consumeByte_refill {s : State} (h : s.asm.Inv) (b : Byte) (f g : Nat) :
    consumeByte b (s.refill f g) = (consumeByte b s).refill f g := by
  have hstep : stepByte (s.refill f g).asm b = { stepByte s.asm b with asm := (stepByte s.asm b).asm.refill g } :=
    stepByte_refill h b g
  rw [consumeByte_eq, consumeByte_eq, hstep]
  rfl

/-- Every instruction does the same, whatever the unwritten slots hold. -/
theorem exec_refill {i : Instr} {s t : State} (hheld : s.ring.HeldWritten) (hinv : s.asm.Inv) (h : exec i s = .next t)
    (f g : Nat) : exec i (s.refill f g) = .next (t.refill f g) := by
  cases i with
  | ringReset =>
    cases h
    rfl
  | ringPush b =>
    rw [exec_ringPush] at h
    split at h <;> cases h
    next hfull => exact exec_ringPush_of_full hfull
    next hroom => exact exec_ringPush_of_room (Bool.eq_false_iff.mpr hroom)
  | ringPop =>
    have hpop' := popByte_refill hheld f
    cases hpop : popByte s.ring with
    | none =>
      rw [exec_ringPop_of_empty hpop] at h
      cases h
      rw [hpop] at hpop'
      exact exec_ringPop_of_empty hpop'
    | some br =>
      rw [exec_ringPop_of_pop hpop] at h
      cases h
      rw [hpop] at hpop'
      exact exec_ringPop_of_pop (s := s.refill f g) hpop'
  | ringSize =>
    cases h
    rfl
  | feed =>
    have hpop' := popByte_refill hheld f
    cases hpop : popByte s.ring with
    | none =>
      rw [exec_feed, feedIteration_of_empty hpop] at h
      cases h
      rw [hpop] at hpop'
      rw [exec_feed, feedIteration_of_empty (s := s.refill f g) hpop']
      rfl
    | some br =>
      rw [exec_feed_of_pop (b := br.1) (r := br.2) hpop] at h
      cases h
      rw [hpop] at hpop'
      rw [exec_feed_of_pop (s := s.refill f g) hpop']
      exact congrArg _ (consumeByte_refill (s := { s with ring := br.2 }) hinv br.1 f g)
  | asmReset =>
    cases h
    rfl
  | reservedOp low => cases h
  | _ =>
    cases h
    exact congrArg _ (consumeByte_refill hinv _ f g)

/-- Settles O59: the turn is the same (`turnComesTo`), the instruction does the same (`exec_refill`), and a hardware reset
forgets the slots of both. -/
theorem unwrittenSlotsAreNeverRead : Obligations.UnwrittenSlotsAreNeverRead := fun s f g t hinv h => by
  have hfront : SameFront s (s.refill f g) := ⟨rfl, rfl, rfl, rfl⟩
  obtain ⟨f', g', ht⟩ : ∃ f' g', step (s.refill f g) = .next (t.refill f' g') := by
    rcases turnComesTo s with ⟨r, hstep⟩ | ⟨turns, hstep⟩ | ⟨i, turns, ps, cs, hstep⟩ | ⟨p, c, turns, hstep⟩ <;>
      rw [hstep s (.refl s)] at h <;> rw [hstep _ hfront]
    · cases h
    · cases h
      exact ⟨f, g, rfl⟩
    · exact ⟨f, g, exec_refill (s := s.withFront turns ps cs) hinv.held hinv.assembly h f g⟩
    · cases h
      exact ⟨f + 1, g + 1, rfl⟩
  exact ⟨_, ht, rfl⟩

end Sys2Proof.Machine
end
